-- ==== Sys2Proof/Word.lean ====
section
/-! DEFINITION. The word types of RSBCH (00_scope.md R11, R12): a host register and a command are 32 bits, a
codeword is an unsigned 8-bit byte, and bit 0 is the least significant bit of a value. -/

namespace Sys2Proof

/-- A command word, and the value of a host register: 32 bits (R11). -/
abbrev Word := BitVec 32

/-- A codeword, a working-buffer byte, an entry of DIN or DOUT: 8 bits, unsigned (R11, R12). -/
abbrev Byte := BitVec 8

end Sys2Proof
end

