-- ==== Sys2Proof/Syntax.lean ====
section
/-! DEFINITION. The commands of RSBCH, one constructor per row of the opcode map (30_encoding.md R84), with their
operands as the unsigned integers that R83 reads from the fields, and the assembler's notation for them (R88, R89). An
operand is a plain number: WellFormed.lean says which numbers fit their field. -/

namespace Sys2Proof

/-- One command (R84). Operand names are those of R83. -/
inductive Instr where
  /-- No operation (R105). -/
  | nop
  /-- Zero the working buffer (R120). -/
  | clr
  /-- Write byte `val` to working-buffer cell `idx` (R121). -/
  | ldb (idx val : Nat)
  /-- Select the EC word count `k` (R122). -/
  | setk (k : Nat)
  /-- One division step with the current EC word count (R123). -/
  | step
  /-- Copy working-buffer cell `idx` to DOUT (R124). -/
  | rdb (idx : Nat)
  /-- Send the first `KR` working-buffer cells to DOUT (R125). -/
  | emit
  /-- One whole block: `d` data bytes from DIN, `k` EC bytes to DOUT (R130). -/
  | rsblk (d k : Nat)
  /-- The format word of level index `level` and mask index `mask` (R152). -/
  | fmt (level mask : Nat)
deriving DecidableEq, Repr

/-- The error-correction levels as the assembler writes them (R88). -/
inductive EcLevel where
  | L | M | Q | H
deriving DecidableEq, Repr

/-- The level index, "mapping L=0,M=1,Q=2,H=3" (R83, R151). -/
def EcLevel.index : EcLevel → Nat
  | .L => 0
  | .M => 1
  | .Q => 2
  | .H => 3

/-- A line of an assembler program: a command, or a pseudo-instruction that stands for several (R89). -/
inductive AsmLine where
  /-- One command. -/
  | command (i : Instr)
  /-- `STEPN n`: STEP written `n` times. -/
  | stepn (n : Nat)
  /-- `LDSEQ v0, …`: LDB of each byte at its place. -/
  | ldseq (vs : List Nat)
  /-- `RSPRIM k, v0, …`: CLR, LDSEQ, SETK, STEPN and EMIT for one block. -/
  | rsprim (k : Nat) (vs : List Nat)
deriving DecidableEq, Repr

end Sys2Proof
end

