-- ==== Sys2Proof/WellFormed.lean ====
section
/-! DEFINITION. Which commands can be written as a word: every operand fits its field (30_encoding.md R81 to R83, and R88:
"An assembler refuses an operand that does not fit its field"). An operand that fits its field but is out of range for
the command is well formed, and faults when it executes (R87, R88). -/

namespace Sys2Proof

/-- Every operand fits its field (R81, R88). -/
def Instr.wellFormed : Instr → Bool
  | .nop => true
  | .clr => true
  | .ldb idx val => decide (idx < 256) && decide (val < 256)
  | .setk k => decide (k < 256)
  | .step => true
  | .rdb idx => decide (idx < 256)
  | .emit => true
  | .rsblk d k => decide (d < 256) && decide (k < 256)
  | .fmt level mask => decide (level < 4) && decide (mask < 8)

/-- The assembler accepts the line: every operand fits its field, and a sequence has at most 123 bytes (R88, R89). -/
def AsmLine.wellFormed : AsmLine → Bool
  | .command i => i.wellFormed
  | .stepn _ => true
  | .ldseq vs => decide (vs.length ≤ 123) && vs.all (fun v => decide (v < 256))
  | .rsprim k vs => decide (k < 256) && decide (vs.length ≤ 123) && vs.all (fun v => decide (v < 256))

end Sys2Proof
end

