-- ==== Sys2Proof/Decode.lean ====
section
/-! DEFINITION. Decoding and encoding of command words (30_encoding.md R80 to R90). A command is one 32-bit word; there is
no fetch from a memory and so no byte order (20_memory.md R62, R74). Decoding is total (R87): a word gives one row of the
opcode map with its operands, or nothing, which the sequencer reports as ILLEGAL_CMD. -/

namespace Sys2Proof

/-- The bit field `w[lo+len-1 : lo]` as an unsigned integer (R12, R83). -/
def field (w : Word) (lo len : Nat) : Nat := (w.extractLsb' lo len).toNat

/-- One row of the opcode map (R84): the word belongs to the row when `(w & mask) = pattern`, and `read` reads its operands. -/
structure OpRow where
  pattern : Word
  mask : Word
  read : Word → Instr

/-- The opcode map, in the order of R84, with the operand fields of R83. -/
def opcodeMap : List OpRow :=
  [ { pattern := 0x00000000, mask := 0xFFFFFFFF, read := fun _ => .nop },
    { pattern := 0x10000000, mask := 0xFFFFFFFF, read := fun _ => .clr },
    { pattern := 0x20000000, mask := 0xFF00FF00, read := fun w => .ldb (field w 16 8) (field w 0 8) },
    { pattern := 0x30000000, mask := 0xFFFFFF00, read := fun w => .setk (field w 0 8) },
    { pattern := 0x40000000, mask := 0xFFFFFFFF, read := fun _ => .step },
    { pattern := 0x50000000, mask := 0xFF00FFFF, read := fun w => .rdb (field w 16 8) },
    { pattern := 0x60000000, mask := 0xFFFFFFFF, read := fun _ => .emit },
    { pattern := 0x70000000, mask := 0xFF00FF00, read := fun w => .rsblk (field w 16 8) (field w 0 8) },
    { pattern := 0x80000000, mask := 0xFFFFFFE0, read := fun w => .fmt (field w 3 2) (field w 0 3) } ]

/-- The word belongs to the row (R84, R86). -/
def OpRow.admits (r : OpRow) (w : Word) : Bool := (w &&& r.mask) == r.pattern

/-- Decoding of a command word (R87): the row it belongs to with its operands, or `none` for ILLEGAL_CMD (R85, R86). -/
def decode (w : Word) : Option Instr := (opcodeMap.find? (fun r => r.admits w)).map (fun r => r.read w)

/-- A word of format Z, A, B or AB (R82): `oooo 0000 aaaa aaaa 0000 0000 bbbb bbbb`, a field the format does not use
being 0. -/
def packAB (op a b : Nat) : Word :=
  (BitVec.ofNat 4 op ++ 0#4 ++ BitVec.ofNat 8 a ++ 0#8 ++ BitVec.ofNat 8 b : BitVec 32)

/-- A word of format F (R82): `oooo 0000 0000 0000 0000 0000 000l lmmm`. -/
def packF (op level mask : Nat) : Word :=
  (BitVec.ofNat 4 op ++ 0#23 ++ BitVec.ofNat 2 level ++ BitVec.ofNat 3 mask : BitVec 32)

/-- The word of a command (R82, R88). For a well-formed command no operand bit is lost. -/
def encode : Instr → Word
  | .nop => packAB 0x0 0 0
  | .clr => packAB 0x1 0 0
  | .ldb idx val => packAB 0x2 idx val
  | .setk k => packAB 0x3 0 k
  | .step => packAB 0x4 0 0
  | .rdb idx => packAB 0x5 idx 0
  | .emit => packAB 0x6 0 0
  | .rsblk d k => packAB 0x7 d k
  | .fmt level mask => packF 0x8 level mask

/-- The LDB commands of `LDSEQ`, from place `place` on (R89). -/
def loadSequence (place : Nat) : List Nat → List Instr
  | [] => []
  | v :: vs => .ldb place v :: loadSequence (place + 1) vs

/-- The commands a line stands for, in order (R89). -/
def AsmLine.expand : AsmLine → List Instr
  | .command i => [i]
  | .stepn n => List.replicate n .step
  | .ldseq vs => loadSequence 0 vs
  | .rsprim k vs => .clr :: (loadSequence 0 vs ++ (.setk k :: (List.replicate vs.length .step ++ [.emit])))

/-- The words of an assembler program; the assembler refuses a program with a line that is not well formed (R88). -/
def assemble (lines : List AsmLine) : Option (List Word) :=
  if lines.all AsmLine.wellFormed then some ((lines.flatMap AsmLine.expand).map encode) else none

/-- What the decoder reads from a word numbered as the opcode table numbers it: `nbits` bits of `w`, every bit above them 0.
All commands are one 32-bit word (R80), so a longer pattern with a bit set above bit 31 is no command. -/
def decodeTableWord (nbits w : Nat) : Option Instr :=
  if w % 2 ^ nbits < 2 ^ 32 then decode (BitVec.ofNat 32 (w % 2 ^ nbits)) else none

end Sys2Proof
end

