-- ==== Sys2Proof/Machine/Rom.lean ====
section
/-! DEFINITION. The read-only tables of RSBCH (10_state.md R27 to R30) and multiplication in GF(256) through them
(41_reed_solomon.md R111). ALOG and LOG are the tables of the spec. The generator table is a parameter (00_scope.md R8,
10_state.md R52), and K_SET is the set of EC word counts it has a row for; the spec's table is its default. No step changes
any of them (R193). -/

namespace Sys2Proof.Machine

/-- The antilog ROM, entries ALOG[0] to ALOG[254] (R27). -/
def alogRom : List Byte :=
  [ 1, 2, 4, 8, 16, 32, 64, 128, 29, 58, 116, 232, 205, 135, 19, 38,
    76, 152, 45, 90, 180, 117, 234, 201, 143, 3, 6, 12, 24, 48, 96, 192,
    157, 39, 78, 156, 37, 74, 148, 53, 106, 212, 181, 119, 238, 193, 159, 35,
    70, 140, 5, 10, 20, 40, 80, 160, 93, 186, 105, 210, 185, 111, 222, 161 ] ++
  [ 95, 190, 97, 194, 153, 47, 94, 188, 101, 202, 137, 15, 30, 60, 120, 240,
    253, 231, 211, 187, 107, 214, 177, 127, 254, 225, 223, 163, 91, 182, 113, 226,
    217, 175, 67, 134, 17, 34, 68, 136, 13, 26, 52, 104, 208, 189, 103, 206,
    129, 31, 62, 124, 248, 237, 199, 147, 59, 118, 236, 197, 151, 51, 102, 204 ] ++
  [ 133, 23, 46, 92, 184, 109, 218, 169, 79, 158, 33, 66, 132, 21, 42, 84,
    168, 77, 154, 41, 82, 164, 85, 170, 73, 146, 57, 114, 228, 213, 183, 115,
    230, 209, 191, 99, 198, 145, 63, 126, 252, 229, 215, 179, 123, 246, 241, 255,
    227, 219, 171, 75, 150, 49, 98, 196, 149, 55, 110, 220, 165, 87, 174, 65 ] ++
  [ 130, 25, 50, 100, 200, 141, 7, 14, 28, 56, 112, 224, 221, 167, 83, 166,
    81, 162, 89, 178, 121, 242, 249, 239, 195, 155, 43, 86, 172, 69, 138, 9,
    18, 36, 72, 144, 61, 122, 244, 245, 247, 243, 251, 235, 203, 139, 11, 22,
    44, 88, 176, 125, 250, 233, 207, 131, 27, 54, 108, 216, 173, 71, 142 ]

/-- The log ROM, entries LOG[1] to LOG[255] (R28). LOG[0] has no value, and no entry. -/
def logRom : List Nat :=
  [ 0, 1, 25, 2, 50, 26, 198, 3, 223, 51, 238, 27, 104, 199, 75, 4,
    100, 224, 14, 52, 141, 239, 129, 28, 193, 105, 248, 200, 8, 76, 113, 5,
    138, 101, 47, 225, 36, 15, 33, 53, 147, 142, 218, 240, 18, 130, 69, 29,
    181, 194, 125, 106, 39, 249, 185, 201, 154, 9, 120, 77, 228, 114, 166, 6 ] ++
  [ 191, 139, 98, 102, 221, 48, 253, 226, 152, 37, 179, 16, 145, 34, 136, 54,
    208, 148, 206, 143, 150, 219, 189, 241, 210, 19, 92, 131, 56, 70, 64, 30,
    66, 182, 163, 195, 72, 126, 110, 107, 58, 40, 84, 250, 133, 186, 61, 202,
    94, 155, 159, 10, 21, 121, 43, 78, 212, 229, 172, 115, 243, 167, 87, 7 ] ++
  [ 112, 192, 247, 140, 128, 99, 13, 103, 74, 222, 237, 49, 197, 254, 24, 227,
    165, 153, 119, 38, 184, 180, 124, 17, 68, 146, 217, 35, 32, 137, 46, 55,
    63, 209, 91, 149, 188, 207, 205, 144, 135, 151, 178, 220, 252, 190, 97, 242,
    86, 211, 171, 20, 42, 93, 158, 132, 60, 57, 83, 71, 109, 65, 162, 31 ] ++
  [ 45, 67, 216, 183, 123, 164, 118, 196, 23, 73, 236, 127, 12, 111, 246, 108,
    161, 59, 82, 41, 157, 85, 170, 251, 96, 134, 177, 187, 204, 62, 90, 203,
    89, 95, 176, 156, 169, 160, 81, 11, 245, 22, 235, 122, 117, 44, 215, 79,
    174, 213, 233, 230, 231, 173, 232, 116, 214, 244, 234, 168, 80, 88, 175 ]

/-- ALOG at an exponent, reduced mod 255 as every rule that reads ALOG reduces it (R112, R114); so entry 255, which the ROM
does not have, is never read (R27). -/
def alog (e : Nat) : Byte := alogRom.getD (e % 255) 0

/-- LOG of a byte: its entry for `b ≠ 0`, and nothing for 0, because LOG[0] has no value (R28). -/
def log (b : Byte) : Option Nat := if b = 0 then none else logRom[b.toNat - 1]?

/-- A generator table: for each EC word count `k` that has a polynomial, the row GEN[k][0], …, GEN[k][k−1] of exponents (R29).
It is a parameter of the model, and with it K_SET (R8, R52; 93_implementation_defined.md I24, I27). Log entry 7. -/
abbrev GenRom := List (Nat × List Nat)

/-- The default of the parameter: the spec's table, with the spec's K_SET (R8, R30). -/
def defaultGenRom : GenRom :=
  [ (7, [87, 229, 146, 149, 238, 102, 21]),
    (10, [251, 67, 46, 61, 118, 70, 64, 94, 32, 45]),
    (13, [74, 152, 176, 100, 86, 100, 106, 104, 130, 218, 206, 140, 78]),
    (15, [8, 183, 61, 91, 202, 37, 51, 58, 58, 237, 140, 124, 5, 99, 105]),
    (16, [120, 104, 107, 109, 102, 161, 76, 3, 91, 191, 147, 169, 182, 194, 225, 120]),
    (17, [43, 139, 206, 78, 43, 239, 123, 206, 214, 147, 24, 99, 150, 39, 243, 163, 136]),
    (18, [215, 234, 158, 94, 184, 97, 118, 170, 79, 187, 152, 148, 252, 179, 5, 98, 96, 153]) ] ++
  [ (20, [17, 60, 79, 50, 61, 163, 26, 187, 202, 180, 221, 225, 83, 239, 156, 164, 212, 212, 188, 190]),
    (22, [210, 171, 247, 242, 93, 230, 14, 109, 221, 53, 200, 74, 8, 172, 98, 80, 219, 134, 160, 105,
      165, 231]),
    (24, [229, 121, 135, 48, 211, 117, 251, 126, 159, 180, 169, 152, 192, 226, 228, 218, 111, 0, 117, 232,
      87, 96, 227, 21]),
    (26, [173, 125, 158, 2, 103, 182, 118, 17, 145, 201, 111, 28, 165, 53, 161, 21, 245, 142, 13, 102,
      48, 227, 153, 145, 218, 70]),
    (28, [168, 223, 200, 104, 224, 234, 108, 180, 110, 190, 195, 147, 205, 27, 232, 201, 21, 43, 245, 87,
      42, 195, 212, 119, 242, 37, 9, 123]),
    (30, [41, 173, 145, 152, 216, 31, 179, 182, 50, 48, 110, 86, 239, 96, 222, 125, 42, 173, 226, 193,
      224, 130, 156, 37, 251, 216, 238, 40, 192, 180]) ]

/-- K_SET: "the set of EC word counts for which the generator table holds a polynomial" (R8). -/
def GenRom.kSet (rom : GenRom) : List Nat := rom.map Prod.fst

/-- The constraint on the parameter (R8, R29): every `k` lies in `1..123` and has a row of exactly `k` exponents in 0..254. The
rows stand in rising order of `k`, so that equal tables are equal data. -/
def GenRom.wf (rom : GenRom) : Bool :=
  rom.all (fun r => decide (1 ≤ r.1) && decide (r.1 ≤ 123) && decide (r.2.length = r.1) &&
    r.2.all (fun e => decide (e < 255))) && decide (rom.kSet.Pairwise (· < ·))

/-- Row `k` of the generator table; there is none for `k ∉ K_SET` (R29). -/
def GenRom.row (rom : GenRom) (k : Nat) : List Nat := ((rom.find? (fun r => r.1 == k)).map (fun r => r.2)).getD []

/-- `GEN[k][m]`, where the table has it (R29). -/
def GenRom.gen (rom : GenRom) (k m : Nat) : Option Nat := (rom.row k)[m]?

/-- Multiplication in GF(256) by the tables (R111). -/
def gfmul (a b : Byte) : Byte :=
  match log a, log b with
  | some i, some j => alog (i + j)
  | _, _ => 0

end Sys2Proof.Machine
end

