-- ==== Sys2Proof/Config.lean ====
section
/-! DEFINITION. The parameters of one RSBCH block that the spec leaves OPEN (00_scope.md R10, 10_state.md R36, R52;
92_eei_decisions.md, "Parameters left open"). An open parameter is an uninterpreted constant: no proof can see its
value, so what is proved holds for every value the spec's constraint admits. WB_SIZE = D_MAX = 123 (R7, R9) is fixed by
the spec and stands as the numeral 123, as the rules write it. The parameter with a DEFAULT, K_SET with its generator table
(R8, R52), is an argument that stands beside the block's state (Machine/State.lean, log entry 7): a constant without a body
has no default. -/

namespace Sys2Proof.Config

/-- How many entries `CQ` holds beyond the one that R10 requires. Log entry 1. -/
opaque cqExtra : Nat

/-- How many entries `DIN` holds beyond the 123 that R10 requires. Log entry 1. -/
opaque dinExtra : Nat

/-- How many entries `DOUT` holds beyond the 123 that R10 requires. Log entry 1. -/
opaque doutExtra : Nat

/-- `CQ_DEPTH ≥ 1` (R10). -/
def cqDepth : Nat := cqExtra + 1

/-- `DIN_DEPTH ≥ D_MAX = 123` (R10, R9). -/
def dinDepth : Nat := dinExtra + 123

/-- `DOUT_DEPTH ≥ WB_SIZE = 123` (R10, R7). -/
def doutDepth : Nat := doutExtra + 123

/-- `RSBCH_BASE`, the byte address at which the platform places the 256-byte register window (R36, R67). Log entry 1. -/
opaque rsbchBase : Nat

/-- What a count register returns for a queue of `n ≥ 2^32` entries, which no 32-bit register can count: the spec bounds no
capacity from above and states no value there (R10, R44). A free value. Log entry 9. -/
opaque wideCount : Nat → Word

end Sys2Proof.Config
end

