-- ==== Sys2Proof/Machine/State.lean ====
section
/-! DEFINITION. The state of RSBCH (10_state.md, R20 to R52) and the reasons a step can stop. Every piece of state the
spec names has one field. Two fields are the model's own and stand for the other agent, the host (R21): the turns still to
be taken, and what the last host read returned. One field is no state but the parameter K_SET with its generator table
(R52), an argument of every step that no step changes. STATUS, CQCNT, DINCNT and DOUTCNT are computed (Machine/Flags.lean). -/

namespace Sys2Proof.Machine

/-- One cell of the working buffer: a byte, or the poison value `⊥` of a cell nothing has written since reset (R22, R49). -/
inductive WbCell where
  | poison
  | byte (b : Byte)
deriving DecidableEq, Repr

/-- The working buffer `WB[0..122]`: WB_SIZE = 123 cells (R7, R22). -/
abbrev Wb := Vector WbCell 123

/-- The fault codes a command can raise (R171). Codes 0x07 to 0xFF are never produced. -/
inductive FaultCode where
  /-- The word decodes to no row of the opcode map. -/
  | illegalCmd
  /-- LDB or RDB with `idx ≥ 123`. -/
  | badIndex
  /-- SETK or RSBLK with `k ∉ K_SET`. -/
  | badK
  /-- RSBLK with `d > 123`. -/
  | badD
  /-- STEP or EMIT with `KV = 0`. -/
  | kUnset
  /-- STEP, RDB or EMIT reading a cell that is `⊥`. -/
  | undefRead
deriving DecidableEq, Repr

/-- What a fault check reports: the fault code and the information word of R173. -/
structure FaultReport where
  code : FaultCode
  info : Byte
deriving DecidableEq, Repr

/-- One action of the host (R21). An address is a byte address on the platform's bus, a width is in bits. -/
inductive HostAction where
  /-- A read of `width` bits at `addr`. -/
  | read (addr width : Nat)
  /-- A write of `width` bits at `addr`; of `data` the low `width` bits count. -/
  | write (addr width : Nat) (data : Word)
  /-- The RST input, the block's hardware reset port, is active (R190). -/
  | rst
deriving DecidableEq, Repr

/-- Which agent takes a step (R69): the host, with the action it takes, or the sequencer. Log entry 2. -/
inductive Turn where
  | host (a : HostAction)
  | sequencer
deriving DecidableEq, Repr

/-- The state of the block, and of the host as far as the block sees it. -/
structure State where
  /-- The working buffer (R22), with the poison marks of R49. -/
  wb : Wb
  /-- The EC word count register KR (R23). -/
  kr : Byte
  /-- KV: `kr` holds a value that SETK or RSBLK wrote (R24). -/
  kv : Bool
  /-- The format register FMTR (R25). -/
  fmtr : BitVec 15
  /-- FV: `fmtr` holds a value that FMT wrote (R26). -/
  fv : Bool
  /-- The command queue CQ, oldest first (R31). -/
  cq : List Word
  /-- The input byte queue DIN, oldest first (R32). -/
  din : List Byte
  /-- The output byte queue DOUT, oldest first (R33). -/
  dout : List Byte
  /-- The sticky FAULT flag (R34). -/
  fault : Bool
  /-- ERRCODE, the fault code (R34, R171). -/
  errcode : Byte
  /-- ERRCMD, the command word that faulted (R34). -/
  errcmd : Word
  /-- ERRINFO, the information value (R34, R173). -/
  errinfo : Byte
  /-- The MODEL's own: the turns still to be taken, first one first; when none is left every turn is the sequencer's.
  A claim about every state is a claim about every list of turns, so about every interleaving of R69. Log entry 2. -/
  turns : List Turn
  /-- The MODEL's own: what the last completed host read returned, `none` before the first. Log entry 3. -/
  busData : Option Word
  /-- A PARAMETER, no state of the block (R52): the generator table, and with it K_SET (R8, R29). Every step takes it as an
  argument and none changes it, a reset included; a claim about every state is a claim about every K_SET. Log entry 7. -/
  genRom : GenRom
deriving DecidableEq, Repr

/-- The block right after reset (R51, R190, R191). KR and FMTR are "unspecified" there; their 0 is the model's choice
(log entry 4), hidden by KV = 0 and FV = 0. No turn is given and no host read has happened. The parameter has its default
(R8); the state after reset of a block with another table is this one with `genRom` that table. -/
def State.reset : State :=
  { wb := Vector.replicate 123 .poison
    kr := 0
    kv := false
    fmtr := 0
    fv := false
    cq := []
    din := []
    dout := []
    fault := false
    errcode := 0
    errcmd := 0
    errinfo := 0
    turns := []
    busData := none
    genRom := defaultGenRom }

/-- The reasons a step can end the machine with a fault. There is none: a fault of RSBCH is a STATE (FAULT = 1, R172), which
a step enters and which only a reset leaves, so no step of this machine is a fault of the model. Log entry 5. -/
inductive Fault where
deriving DecidableEq, Repr

/-- The reasons a step is refused. Every constructor but the first is a host access without a meaning (R179, R48, R63): the
spec itself marks the run refused, the access changes nothing, and no claim about such a run can be proved. All are safe. -/
inductive Refusal where
  /-- Raised by no step: every command has its meaning. Kept for the host's interface. Safe. -/
  | notModelled (mnemonic : String)
  /-- Host: an address outside the block's 256-byte window, which is no access to this block (R36, log entry 6). Safe. -/
  | outsideWindow
  /-- Host: an access narrower or wider than 32 bits (R48, R63). Safe. -/
  | accessWidth
  /-- Host: an offset that is not a multiple of 4 (R48, R63). Safe. -/
  | misaligned
  /-- Host: an offset from 0x2C to 0xFF (R48). Safe. -/
  | reservedOffset
  /-- Host: a read of CMD, DIN or CTRL (R37, R38, R47). Safe. -/
  | readOfWriteOnly
  /-- Host: a write of DOUT, STATUS, FMTR, ERRCMD, ERRINFO, CQCNT, DINCNT or DOUTCNT (R39 to R46). Safe. -/
  | writeOfReadOnly
  /-- Host: a write of CMD while `|CQ| = CQ_DEPTH` (R37). Safe. -/
  | commandQueueFull
  /-- Host: a write of DIN with bits[31:8] ≠ 0 (R38). Safe. -/
  | dinReservedBits
  /-- Host: a write of DIN while `|DIN| = DIN_DEPTH` (R38). Safe. -/
  | inputQueueFull
  /-- Host: a write of CTRL with bits[31:1] ≠ 0 (R47). Safe. -/
  | ctrlReservedBits
  /-- Host: a read of DOUT while it is empty (R39). Safe. -/
  | outputQueueEmpty
  /-- Host: a read of FMTR while FV = 0 (R41). Safe. -/
  | formatUnset
deriving DecidableEq, Repr

end Sys2Proof.Machine
end

