-- ==== Sys2Proof/Machine/Ops.lean ====
section
/-! DEFINITION. The named operations over the state: the working buffer with its poison arithmetic (00_scope.md R13, R15),
the division step (41_reed_solomon.md R114), the queues (R14), fault entry and the reset that alone leaves it
(60_exceptions.md R172, R177; 70_reset_and_hazards.md R190), and the fetch of the next command (40_control.md R100). -/

namespace Sys2Proof.Machine

/-! ## The working buffer -/

/-- Poison arithmetic (R15): `⊥` XOR anything is `⊥`. -/
def WbCell.xor : WbCell → WbCell → WbCell
  | .byte a, .byte b => .byte (a ^^^ b)
  | _, _ => .poison

/-- The byte of a cell, if it holds one. -/
def WbCell.byte? : WbCell → Option Byte
  | .byte b => some b
  | .poison => none

/-- The buffer whose cell `i` is `f i`. -/
def Wb.ofFn (f : Nat → WbCell) : Wb := ⟨⟨(List.range 123).map f⟩, by simp⟩

/-- `WB[i]` (R13). There is no cell past 122; every reader checks its index first (R174). -/
def readWb (wb : Wb) (i : Nat) : WbCell := if h : i < 123 then wb[i] else .poison

/-- `WB[i] <- c` (R13). -/
def writeWb (wb : Wb) (i : Nat) (c : WbCell) : Wb := wb.setIfInBounds i c

/-- Every cell zero: "Zero the working buffer" (R110, R120). -/
def zeroWb : Wb := Vector.replicate 123 (.byte 0)

/-- "Shift buffer left by one, zeroing the tail" (R114): `WB[i] <- WB[i+1]`, `WB[122] <- 0`. -/
def shiftWb (wb : Wb) : Wb := Wb.ofFn fun i => if i = 122 then .byte 0 else readWb wb (i + 1)

/-- `WB[m] <- WB[m] ⊕ ALOG[(GEN[k][m] + e) mod 255]` for every `m` in `0..k−1` (R114). -/
def xorGenerator (rom : GenRom) (k e : Nat) (wb : Wb) : Wb :=
  Wb.ofFn fun m =>
    match rom.gen k m with
    | some g => (readWb wb m).xor (.byte (alog (g + e)))
    | none => readWb wb m

/-- `DivStep(k)` (R114) with the generator table `rom`, one pass of the loop of §4.3. Its callers have checked that `WB[0]` is
not `⊥`, which the first arm leaves alone. LOG has an entry exactly for a lead that is not 0, so the second arm is the pure
shift. -/
def divStep (rom : GenRom) (k : Nat) (wb : Wb) : Wb :=
  match readWb wb 0 with
  | .poison => wb
  | .byte lead =>
    match log lead with
    | none => shiftWb wb
    | some e => xorGenerator rom k e (shiftWb wb)

/-- The buffer after "Zero the working buffer" and "copy the block's data_words input bytes into positions
0..data_words−1" (R110, R130), first byte at `WB[0]` (20_memory.md R61). -/
def loadWb (data : List Byte) : Wb := Wb.ofFn fun i => .byte (data.getD i 0)

/-- The bytes of `WB[0..k−1]`, `WB[0]` first (R61, R125). Its callers have checked that none of them is `⊥`. -/
def wbBytes (k : Nat) (wb : Wb) : List Byte := (List.range k).filterMap fun m => (readWb wb m).byte?

/-- The lowest `m < k` with `WB[m] = ⊥` (R173). -/
def lowestPoison (k : Nat) (wb : Wb) : Option Nat := (List.range k).find? fun m => readWb wb m == .poison

/-- The buffer after one whole block: load the data bytes, then one division step for each (R110, R130). -/
def blockWb (rom : GenRom) (k : Nat) (data : List Byte) : Wb := (divStep rom k)^[data.length] (loadWb data)

/-! ## Queues -/

/-- The head command leaves CQ (R100). -/
def State.popCommand (s : State) : State := { s with cq := s.cq.tail }

/-- `DoutPush` of each byte, in order (R14). -/
def State.pushDout (bs : List Byte) (s : State) : State := { s with dout := s.dout ++ bs }

/-- `DinPop` of the `n` oldest bytes (R14). -/
def State.dropDin (n : Nat) (s : State) : State := { s with din := s.din.drop n }

/-! ## Faults -/

/-- The number of a fault code, as ERRCODE holds it (R171). -/
def FaultCode.toByte : FaultCode → Byte
  | .illegalCmd => 0x01
  | .badIndex => 0x02
  | .badK => 0x03
  | .badD => 0x04
  | .kUnset => 0x05
  | .undefRead => 0x06

/-- FAULT ENTRY (R172): the faulting word `w`, the head of CQ, leaves CQ; FAULT, ERRCODE, ERRCMD and ERRINFO are written;
nothing else changes. -/
def raiseFault (f : FaultReport) (w : Word) (s : State) : State :=
  { s.popCommand with fault := true, errcode := f.code.toByte, errcmd := w, errinfo := f.info }

/-- RESET (R190), by the RST input or by CTRL.SRST: the only return from a fault (R177). Every piece of the block's state takes
its value of R51. The ROMs are not touched (R190), and the host is not reset: the turns it still has and the data it has read
stay (log entry 12). -/
def resetBlock (s : State) : State := { State.reset with turns := s.turns, busData := s.busData, genRom := s.genRom }

/-! ## The next turn and the next command -/

/-- Who takes the next step (R69), and the state with that turn taken. -/
def nextTurn (s : State) : Turn × State :=
  match s.turns with
  | [] => (.sequencer, s)
  | t :: rest => (t, { s with turns := rest })

/-- The word the sequencer looks at: the head of CQ while the block is not halted by a fault (R35, R100). -/
def fetchCommand (s : State) : Option Word := if s.fault then none else s.cq.head?

/-- The word that ERRCMD takes when command `i` faults: the head of CQ, which is the word `i` was decoded from (R172). -/
def headWord (i : Instr) (s : State) : Word := s.cq.headD (encode i)

/-- A head word that decodes to no row raises ILLEGAL_CMD with information 0 (R85, R86, R173). -/
def illegalCommand (w : Word) (s : State) : State := raiseFault { code := .illegalCmd, info := 0 } w s

/-- A command word at the head of CQ, in place of the head that stands there, with the sequencer to take the next turn and
the fault state (R34) clear, since a fault halts the sequencer: what it needs to run that word next (R100). Log entry 8. -/
def placeCommand (w : Word) (s : State) : State :=
  { s with cq := w :: s.cq.tail, fault := false, errcode := 0, errcmd := 0, errinfo := 0, turns := .sequencer :: s.turns }

end Sys2Proof.Machine
end

