-- ==== Sys2Proof/Machine/Operands.lean ====
section
/-! DEFINITION. The checks a command passes before it runs: `FirstFault(c, state)` (60_exceptions.md R171, R173, R174). The
first check of R174, ILLEGAL_CMD, is decoding's (Step.lean); the others follow here in the order of R174. -/

namespace Sys2Proof.Machine

/-- BAD_INDEX when `idx ≥ 123` (R171), with information `idx`. -/
def checkIndex (idx : Nat) : Option FaultReport :=
  if 123 ≤ idx then some { code := .badIndex, info := BitVec.ofNat 8 idx } else none

/-- BAD_D when `d > 123` (R171), with information `d`. -/
def checkD (d : Nat) : Option FaultReport :=
  if 123 < d then some { code := .badD, info := BitVec.ofNat 8 d } else none

/-- BAD_K when `k ∉ K_SET` (R171), with information `k`. -/
def checkK (k : Nat) (s : State) : Option FaultReport :=
  if k ∈ s.genRom.kSet then none else some { code := .badK, info := BitVec.ofNat 8 k }

/-- K_UNSET when `KV = 0` (R171), with information 0. -/
def checkKv (s : State) : Option FaultReport := if s.kv then none else some { code := .kUnset, info := 0 }

/-- UNDEF_READ when `WB[i] = ⊥` (R171), with information `i`. -/
def checkCell (i : Nat) (s : State) : Option FaultReport :=
  if readWb s.wb i = .poison then some { code := .undefRead, info := BitVec.ofNat 8 i } else none

/-- UNDEF_READ when one of `WB[0..k−1]` is `⊥` (R171), with the lowest such index as information (R173). -/
def checkCells (k : Nat) (s : State) : Option FaultReport :=
  (lowestPoison k s.wb).map fun m => { code := .undefRead, info := BitVec.ofNat 8 m }

/-- `FirstFault(c, state)` for a decoded command (R174): field A, then field B, then KV, then the cells it reads. -/
def firstFault (i : Instr) (s : State) : Option FaultReport :=
  match i with
  | .nop => none
  | .clr => none
  | .ldb idx _ => checkIndex idx
  | .setk k => checkK k s
  | .step => (checkKv s).or (checkCell 0 s)
  | .rdb idx => (checkIndex idx).or (checkCell idx s)
  | .emit => (checkKv s).or (checkCells s.kr.toNat s)
  | .rsblk d k => (checkD d).or (checkK k s)
  | .fmt _ _ => none

end Sys2Proof.Machine
end

