-- ==== Sys2Proof/Machine/Flags.lean ====
section
/-! DEFINITION. The conditions and status bits computed from the state: the hold conditions (40_control.md R101), the derived
flags HELD and IDLE, the STATUS word and the count registers (10_state.md R40, R44 to R46, R50). RSBCH has no arithmetic
flag (R50). -/

namespace Sys2Proof.Machine

/-- The hold condition of a command that has passed every fault check (R101). A command not named there is never held. -/
def holdCondition (i : Instr) (s : State) : Bool :=
  match i with
  | .nop => false
  | .clr => false
  | .ldb _ _ => false
  | .setk _ => false
  | .step => false
  | .rdb _ => decide (s.dout.length + 1 > Config.doutDepth)
  | .emit => decide (s.dout.length + s.kr.toNat > Config.doutDepth)
  | .rsblk d k => decide (s.din.length < d) || decide (s.dout.length + k > Config.doutDepth)
  | .fmt _ _ => false

/-- The command is held: no fault check fails, and its hold condition holds (R100, R101). -/
def held (i : Instr) (s : State) : Bool := (firstFault i s).isNone && holdCondition i s

/-- STATUS.HELD (R40): FAULT = 0, and CQ has a head command, which is held. -/
def heldFlag (s : State) : Bool :=
  match (fetchCommand s).bind decode with
  | some i => held i s
  | none => false

/-- STATUS.IDLE (R40): CQ is empty. -/
def idleFlag (s : State) : Bool := s.cq.isEmpty

/-- STATUS.K (R40): KR, or 0 while KV = 0. -/
def statusK (s : State) : Byte := if s.kv then s.kr else 0

/-- The STATUS word (R40): reserved, K, ERRCODE, reserved, IDLE, HELD, FV, KV, FAULT from bit 31 down. -/
def statusWord (s : State) : Word :=
  (0#8 ++ statusK s ++ s.errcode ++ 0#3 ++ BitVec.ofBool (idleFlag s) ++ BitVec.ofBool (heldFlag s) ++
    BitVec.ofBool s.fv ++ BitVec.ofBool s.kv ++ BitVec.ofBool s.fault : BitVec 32)

/-- A queue's number of entries, zero-extended to 32 bits (R44 to R46). A number that does not fit is a free value (log
entry 9). -/
def countWord (n : Nat) : Word := if n < 2 ^ 32 then BitVec.ofNat 32 n else Config.wideCount n

end Sys2Proof.Machine
end

