-- ==== Sys2Proof/Machine/Command.lean ====
section
/-! DEFINITION. What is common to every decoded command at the head of CQ: the body of `SequencerStep()` after decoding
(40_control.md R100 to R102). -/

namespace Sys2Proof.Machine

/-- The command `i` at the head of CQ (R100): it faults, with exactly the effects of fault entry (R102); or it is held, and
nothing changes; or it leaves CQ and has its effect, all at once. Fault checks come before any hold. -/
def runCommand (i : Instr) (effect : State → State) (s : State) : Host.Outcome State Fault Refusal :=
  match firstFault i s with
  | some f => .next (raiseFault f (headWord i s) s)
  | none => if holdCondition i s then .next s else .next (effect s.popCommand)

end Sys2Proof.Machine
end

