-- ==== Sys2Proof/Machine/BchFormat.lean ====
section
/-! DEFINITION. The BCH format-information command (42_bch_format.md R150 to R153). -/

namespace Sys2Proof.Machine

/-- `L_enc = level ⊕ 1` (R151). -/
def lEnc (level : Nat) : BitVec 2 := BitVec.ofNat 2 level ^^^ 1

/-- `data5 = (L_enc << 3) | mask` (R152). -/
def data5 (level mask : Nat) : BitVec 5 := ((lEnc level).setWidth 5 <<< 3) ||| (BitVec.ofNat 3 mask).setWidth 5

/-- One pass of the long division (R153): `if v[i] = 1: v <- v ⊕ (0x537 << (i − 10))`. -/
def bchStep (v : BitVec 15) (i : Nat) : BitVec 15 := if v.getLsbD i then v ^^^ (0x537 <<< (i - 10)) else v

/-- `BchRem(data5)` (R153): the remainder of `data5 << 10` by 0x537, by long division over GF(2) from bit 14 down to bit 10. -/
def bchRem (d : BitVec 5) : BitVec 10 :=
  (([14, 13, 12, 11, 10] : List Nat).foldl bchStep (d.setWidth 15 <<< 10)).setWidth 10

/-- `fmt15 = ((data5 << 10) | remainder) ⊕ 0x5412` (R150, R152). -/
def formatWord (level mask : Nat) : BitVec 15 :=
  ((data5 level mask).setWidth 15 <<< 10 ||| (bchRem (data5 level mask)).setWidth 15) ^^^ 0x5412

/-- The bits of FMTR in the order a consumer writes them into positions 0 to 14 of a format region: least significant bit
first (R156). -/
def formatBits (f : BitVec 15) : List Bool := (List.range 15).map fun i => f.getLsbD i

/-- FMT level, mask (R152): `FMTR <- fmt15; FV <- 1`. -/
def execFmt (level mask : Nat) (s : State) : Host.Outcome State Fault Refusal :=
  runCommand (.fmt level mask) (fun t => { t with fmtr := formatWord level mask, fv := true }) s

end Sys2Proof.Machine
end

