-- ==== Sys2Proof/Machine/Control.lean ====
section
/-! DEFINITION. The command without an effect (40_control.md R105). -/

namespace Sys2Proof.Machine

/-- NOP (R105): the word leaves CQ, and that is its only effect. -/
def execNop (s : State) : Host.Outcome State Fault Refusal := runCommand .nop (fun t => t) s

end Sys2Proof.Machine
end

