-- ==== Sys2Proof/Machine/ReedSolomon.lean ====
section
/-! DEFINITION. The Reed–Solomon EC generation commands (41_reed_solomon.md R120 to R130). -/

namespace Sys2Proof.Machine

/-- CLR (R120): every cell of WB becomes 0. -/
def execClr (s : State) : Host.Outcome State Fault Refusal := runCommand .clr (fun t => { t with wb := zeroWb }) s

/-- LDB idx, val (R121): `WB[idx] <- val`. -/
def execLdb (idx val : Nat) (s : State) : Host.Outcome State Fault Refusal :=
  runCommand (.ldb idx val) (fun t => { t with wb := writeWb t.wb idx (.byte (BitVec.ofNat 8 val)) }) s

/-- SETK k (R122): `KR <- k; KV <- 1`. -/
def execSetk (k : Nat) (s : State) : Host.Outcome State Fault Refusal :=
  runCommand (.setk k) (fun t => { t with kr := BitVec.ofNat 8 k, kv := true }) s

/-- STEP (R123): `DivStep(KR)`. -/
def execStep (s : State) : Host.Outcome State Fault Refusal :=
  runCommand .step (fun t => { t with wb := divStep t.genRom t.kr.toNat t.wb }) s

/-- RDB idx (R124): `DoutPush(WB[idx])`. -/
def execRdb (idx : Nat) (s : State) : Host.Outcome State Fault Refusal :=
  runCommand (.rdb idx) (fun t => t.pushDout (readWb t.wb idx).byte?.toList) s

/-- EMIT (R125): `DoutPush(WB[m])` for `m` in `0..KR−1`. -/
def execEmit (s : State) : Host.Outcome State Fault Refusal :=
  runCommand .emit (fun t => t.pushDout (wbBytes t.kr.toNat t.wb)) s

/-- The effect of RSBLK d, k (R130): zero WB and load `d` bytes of DIN, set KR and KV, `d` division steps, push `k` bytes. -/
def rsblkEffect (d k : Nat) (t : State) : State :=
  let wb := blockWb t.genRom k (t.din.take d)
  ({ t with wb := wb, kr := BitVec.ofNat 8 k, kv := true }.dropDin d).pushDout (wbBytes k wb)

/-- RSBLK d, k (R130). -/
def execRsblk (d k : Nat) (s : State) : Host.Outcome State Fault Refusal :=
  runCommand (.rsblk d k) (rsblkEffect d k) s

end Sys2Proof.Machine
end

