-- ==== Sys2Proof/Machine/Dispatch.lean ====
section
/-! DEFINITION. The meaning of each command, one arm per constructor of Instr (30_encoding.md R84). -/

namespace Sys2Proof.Machine

/-- The command `i`, standing at the head of CQ with the block not halted (40_control.md R100). -/
def exec (i : Instr) (s : State) : Host.Outcome State Fault Refusal :=
  match i with
  | .nop => Sys2Proof.Machine.execNop s
  | .clr => Sys2Proof.Machine.execClr s
  | .ldb idx val => Sys2Proof.Machine.execLdb idx val s
  | .setk k => Sys2Proof.Machine.execSetk k s
  | .step => Sys2Proof.Machine.execStep s
  | .rdb idx => Sys2Proof.Machine.execRdb idx s
  | .emit => Sys2Proof.Machine.execEmit s
  | .rsblk d k => Sys2Proof.Machine.execRsblk d k s
  | .fmt level mask => Sys2Proof.Machine.execFmt level mask s

end Sys2Proof.Machine
end

