-- ==== Sys2Proof/Machine/HostBus.lean ====
section
/-! DEFINITION. The host's steps: the eleven host registers (10_state.md R36 to R48), the refusals (60_exceptions.md R179) and
the RST input (70_reset_and_hazards.md R190). A host access never raises a fault (R170). -/

namespace Sys2Proof.Machine

/-- The host registers (R36). -/
inductive HostReg where
  | cmd | din | dout | status | fmtr | errcmd | errinfo | cqcnt | dincnt | doutcnt | ctrl
deriving DecidableEq, Repr

/-- The register at a byte offset from RSBCH_BASE; `none` for a reserved offset (R36). -/
def hostRegAt (off : Nat) : Option HostReg :=
  [(0x00, HostReg.cmd), (0x04, .din), (0x08, .dout), (0x0C, .status), (0x10, .fmtr), (0x14, .errcmd), (0x18, .errinfo),
    (0x1C, .cqcnt), (0x20, .dincnt), (0x24, .doutcnt), (0x28, .ctrl)].lookup off

/-- A completed host read: it returns `v` and the block is in state `s` (R65). -/
def hostReturns (v : Word) (s : State) : Host.Outcome State Fault Refusal := .next { s with busData := some v }

/-- A 32-bit read of a register (R37 to R47). Only a read of DOUT changes the block: it removes the head byte (R39). -/
def readReg (r : HostReg) (s : State) : Host.Outcome State Fault Refusal :=
  match r with
  | .cmd => .refused .readOfWriteOnly
  | .din => .refused .readOfWriteOnly
  | .dout =>
    match s.dout with
    | [] => .refused .outputQueueEmpty
    | b :: rest => hostReturns (b.setWidth 32) { s with dout := rest }
  | .status => hostReturns (statusWord s) s
  | .fmtr => if s.fv then hostReturns (s.fmtr.setWidth 32) s else .refused .formatUnset
  | .errcmd => hostReturns s.errcmd s
  | .errinfo => hostReturns (s.errinfo.setWidth 32) s
  | .cqcnt => hostReturns (countWord s.cq.length) s
  | .dincnt => hostReturns (countWord s.din.length) s
  | .doutcnt => hostReturns (countWord s.dout.length) s
  | .ctrl => .refused .readOfWriteOnly

/-- A write of CMD (R37): the word, unchecked, joins CQ. -/
def writeCmd (w : Word) (s : State) : Host.Outcome State Fault Refusal :=
  if s.cq.length < Config.cqDepth then .next { s with cq := s.cq ++ [w] } else .refused .commandQueueFull

/-- A write of DIN (R38): the byte joins DIN. -/
def writeDin (w : Word) (s : State) : Host.Outcome State Fault Refusal :=
  if w.extractLsb' 8 24 ≠ 0 then .refused .dinReservedBits
  else if s.din.length < Config.dinDepth then .next { s with din := s.din ++ [w.setWidth 8] }
  else .refused .inputQueueFull

/-- A write of CTRL (R47): 1 resets the block, 0 has no effect. -/
def writeCtrl (w : Word) (s : State) : Host.Outcome State Fault Refusal :=
  if w.extractLsb' 1 31 ≠ 0 then .refused .ctrlReservedBits
  else if w.getLsbD 0 then .next (resetBlock s) else .next s

/-- A 32-bit write of a register (R37 to R47). -/
def writeReg (r : HostReg) (w : Word) (s : State) : Host.Outcome State Fault Refusal :=
  match r with
  | .cmd => writeCmd w s
  | .din => writeDin w s
  | .dout => .refused .writeOfReadOnly
  | .status => .refused .writeOfReadOnly
  | .fmtr => .refused .writeOfReadOnly
  | .errcmd => .refused .writeOfReadOnly
  | .errinfo => .refused .writeOfReadOnly
  | .cqcnt => .refused .writeOfReadOnly
  | .dincnt => .refused .writeOfReadOnly
  | .doutcnt => .refused .writeOfReadOnly
  | .ctrl => writeCtrl w s

/-- The register an access at `addr` of `width` bits reaches, or why it is refused (R36, R48, R63, R67). -/
def decodeAccess (addr width : Nat) : HostReg ⊕ Refusal :=
  if addr < Config.rsbchBase then .inr .outsideWindow
  else if Config.rsbchBase + 0x100 ≤ addr then .inr .outsideWindow
  else if width ≠ 32 then .inr .accessWidth
  else if (addr - Config.rsbchBase) % 4 ≠ 0 then .inr .misaligned
  else
    match hostRegAt (addr - Config.rsbchBase) with
    | some r => .inl r
    | none => .inr .reservedOffset

/-- One step of the host (R69). -/
def hostStep (a : HostAction) (s : State) : Host.Outcome State Fault Refusal :=
  match a with
  | .read addr width =>
    match decodeAccess addr width with
    | .inl r => readReg r s
    | .inr why => .refused why
  | .write addr width data =>
    match decodeAccess addr width with
    | .inl r => writeReg r data s
    | .inr why => .refused why
  | .rst => .next (resetBlock s)

end Sys2Proof.Machine
end

