-- ==== Sys2Proof/Machine/Step.lean ====
section
/-! DEFINITION. One step of the execution (20_memory.md R69): a host step or a sequencer step (40_control.md R100). -/

namespace Sys2Proof.Machine

/-- The sequencer's turn (R100). Without an enabled step (a fault, an empty CQ, a held command) nothing changes. -/
def sequencerStep (s : State) : Host.Outcome State Fault Refusal :=
  match fetchCommand s with
  | none => .next s
  | some w =>
    match decode w with
    | none => .next (illegalCommand w s)
    | some i => exec i s

/-- One step of the execution (R69): the agent whose turn it is takes one atomic step (R66). -/
def step (s : State) : Host.Outcome State Fault Refusal :=
  match nextTurn s with
  | (.sequencer, t) => sequencerStep t
  | (.host a, t) => hostStep a t

/-- `s` with the command word numbered as the opcode table numbers it placed where the sequencer takes its next command. -/
def State.withFetchWord (s : State) (nbits w : Nat) : State := placeCommand (BitVec.ofNat 32 (w % 2 ^ nbits)) s

end Sys2Proof.Machine
end

