-- ==== Sys2Proof/Machine/HostProgram.lean ====
section
/-! DEFINITION. The host's program for a whole symbol (41_reed_solomon.md R140, R141), as the list of its bus actions. -/

namespace Sys2Proof.Machine

/-- An entry of the source's `block_groups[]` (R141). -/
structure BlockGroup where
  nBlocks : Nat
  dataWordsPerBlock : Nat
  totalWordsPerBlock : Nat
deriving DecidableEq, Repr

/-- `k = total_words_per_block − data_words_per_block` (R141). -/
def BlockGroup.ecWords (g : BlockGroup) : Nat := g.totalWordsPerBlock - g.dataWordsPerBlock

/-- The `(d, k)` of every block of a symbol, in group order, then block order (R140). -/
def symbolBlocks (groups : List BlockGroup) : List (Nat × Nat) :=
  groups.flatMap fun g => List.replicate g.nBlocks (g.dataWordsPerBlock, g.ecWords)

/-- One block: its data bytes written to DIN, in order, then RSBLK written to CMD (R140). -/
def blockActions (d k : Nat) (data : List Byte) : List HostAction :=
  data.map (fun b => .write (Config.rsbchBase + 0x04) 32 (b.setWidth 32)) ++
    [.write Config.rsbchBase 32 (encode (.rsblk d k))]

/-- `HostEncodeSymbol` (R140): block after block, each taking the next `d` data codewords. -/
def encodeBlocks : List (Nat × Nat) → List Byte → List HostAction
  | [], _ => []
  | (d, k) :: blocks, data => blockActions d k (data.take d) ++ encodeBlocks blocks (data.drop d)

/-- `HostEncodeSymbol(groups, data)` (R140), up to the reads of DOUT that fetch the EC output. -/
def hostEncodeSymbol (groups : List BlockGroup) (data : List Byte) : List HostAction :=
  encodeBlocks (symbolBlocks groups) data

/-- The reads that fetch `n` bytes of the EC output (R140). -/
def readOutput (n : Nat) : List HostAction := List.replicate n (.read (Config.rsbchBase + 0x08) 32)

end Sys2Proof.Machine
end

