-- ==== Sys2Proof/Safety.lean ====
section
/-! DEFINITION. The terms in which claims speak of a run: the invariant of the block's state, and a run that neither is
refused nor ends halted by a fault (60_exceptions.md R172, R179). -/

namespace Sys2Proof.Machine

/-- What holds of the block's state at reset and after every step. -/
structure State.Inv (s : State) : Prop where
  /-- The parameter meets its constraint (R8, R29). -/
  rom_wf : s.genRom.wf = true
  /-- No queue holds more than its capacity (R31 to R33, R37, R38, R101). -/
  cq_le : s.cq.length ≤ Config.cqDepth
  din_le : s.din.length ≤ Config.dinDepth
  dout_le : s.dout.length ≤ Config.doutDepth
  /-- KR holds a value of K_SET once KV = 1 (R23, R24). -/
  kr_mem : s.kv = true → s.kr.toNat ∈ s.genRom.kSet
  /-- FMTR holds a format word once FV = 1 (R25, R26). -/
  fmtr_word : s.fv = true → ∃ level mask, level < 4 ∧ mask < 8 ∧ s.fmtr = formatWord level mask
  /-- Without a fault the other three parts of the fault state are 0 (R34, R42). -/
  fault_clear : s.fault = false → s.errcode = 0 ∧ s.errcmd = 0 ∧ s.errinfo = 0
  /-- With a fault ERRCODE holds one of the codes 0x01 to 0x06 (R171). -/
  fault_code : s.fault = true → 1 ≤ s.errcode.toNat ∧ s.errcode.toNat ≤ 6

/-- `n` steps lead from `s` to `t` with no step refused, and the block is not halted by a fault in `t` (R172, R179). FAULT is
sticky, so without a reset on the way no command of the run has faulted. -/
def CleanRun (n : Nat) (s t : State) : Prop := Host.Core.run Sys2Proof.core n s = .next t ∧ t.fault = false

/-- `s` with the commands of `prog` as the whole of CQ, in order, and every turn the sequencer's. -/
def State.withProgram (s : State) (prog : List Instr) : State := { s with cq := prog.map encode, turns := [] }

end Sys2Proof.Machine
end

