-- ==== Sys2Proof/Certificates/Slice0/Obligations.lean ====
section
/-! DEFINITION. The statements about RSBCH for the provers, and the vocabulary they share. Each docstring names the rule of
the spec it formalises. The vocabulary is written from the spec's rules, not from the model's own checks. -/

open Sys2Proof Sys2Proof.Machine

namespace Sys2Proof.Claims

/-! ## Vocabulary -/

/-- It is the sequencer's turn in `s` (20_memory.md R69), and `t` is `s` with that turn taken. -/
def SequencerTurn (s t : State) : Prop :=
  (s.turns = [] ∧ t = s) ∨ ∃ ts, s.turns = .sequencer :: ts ∧ t = { s with turns := ts }

/-- It is the host's turn in `s`, with action `a`, and `t` is `s` with that turn taken. -/
def HostTurn (a : HostAction) (s t : State) : Prop := ∃ ts, s.turns = .host a :: ts ∧ t = { s with turns := ts }

/-- What fault entry leaves (60_exceptions.md R172): FAULT, ERRCODE, ERRCMD and ERRINFO written, the head of CQ gone, nothing
else changed. -/
def faultEntry (code info : Byte) (w : Word) (s : State) : State :=
  { s with cq := s.cq.tail, fault := true, errcode := code, errcmd := w, errinfo := info }

/-- The `(mask, match)` pairs of the opcode map (30_encoding.md R84). -/
def rows : List (Word × Word) :=
  [ (0xFFFFFFFF, 0x00000000), (0xFFFFFFFF, 0x10000000), (0xFF00FF00, 0x20000000), (0xFFFFFF00, 0x30000000),
    (0xFFFFFFFF, 0x40000000), (0xFF00FFFF, 0x50000000), (0xFFFFFFFF, 0x60000000), (0xFF00FF00, 0x70000000),
    (0xFFFFFFE0, 0x80000000) ]

/-- The operand fields of a command word (R83). -/
def fieldA (w : Word) : Nat := (w.extractLsb' 16 8).toNat
def fieldB (w : Word) : Nat := (w.extractLsb' 0 8).toNat

/-- The words with opcode `op` that fit the row decode to its command, and every other word with that opcode is illegal
(R84, R86). -/
def RowOf (op : Nat) (pattern mask : Word) (read : Word → Instr) : Prop :=
  (∀ w : Word, w &&& mask = pattern → decode w = some (read w)) ∧
  (∀ w : Word, (w.extractLsb' 28 4).toNat = op → w &&& mask ≠ pattern → decode w = none)

/-- The fault a decoded command reports, with its code and information (60_exceptions.md R171, R173), in the order of R174. -/
def FaultsWith (i : Instr) (s : State) (code info : Byte) : Prop :=
  match i with
  | .nop => False
  | .clr => False
  | .ldb idx _ => 123 ≤ idx ∧ code = 0x02 ∧ info = BitVec.ofNat 8 idx
  | .setk k => k ∉ s.genRom.kSet ∧ code = 0x03 ∧ info = BitVec.ofNat 8 k
  | .step =>
    (s.kv = false ∧ code = 0x05 ∧ info = 0) ∨
    (s.kv = true ∧ readWb s.wb 0 = .poison ∧ code = 0x06 ∧ info = 0)
  | .rdb idx =>
    (123 ≤ idx ∧ code = 0x02 ∧ info = BitVec.ofNat 8 idx) ∨
    (idx < 123 ∧ readWb s.wb idx = .poison ∧ code = 0x06 ∧ info = BitVec.ofNat 8 idx)
  | .emit =>
    (s.kv = false ∧ code = 0x05 ∧ info = 0) ∨
    (s.kv = true ∧ code = 0x06 ∧ ∃ m, m < s.kr.toNat ∧ readWb s.wb m = .poison ∧
      (∀ j, j < m → readWb s.wb j ≠ .poison) ∧ info = BitVec.ofNat 8 m)
  | .rsblk d k =>
    (123 < d ∧ code = 0x04 ∧ info = BitVec.ofNat 8 d) ∨
    (d ≤ 123 ∧ k ∉ s.genRom.kSet ∧ code = 0x03 ∧ info = BitVec.ofNat 8 k)
  | .fmt _ _ => False

/-- The command passes every fault check (R174). -/
def NoFault (i : Instr) (s : State) : Prop := ∀ code info, ¬ FaultsWith i s code info

/-- The hold condition of a command that has passed every fault check (40_control.md R101). -/
def HoldCondition (i : Instr) (s : State) : Prop :=
  match i with
  | .nop => False
  | .clr => False
  | .ldb _ _ => False
  | .setk _ => False
  | .step => False
  | .rdb _ => s.dout.length + 1 > Config.doutDepth
  | .emit => s.dout.length + s.kr.toNat > Config.doutDepth
  | .rsblk d k => s.din.length < d ∨ s.dout.length + k > Config.doutDepth
  | .fmt _ _ => False

/-- Reset has happened: every piece of state that 10_state.md R51 gives a value holds it. KR and FMTR, which R51 leaves
unspecified, may hold anything. -/
def ResetState (t : State) : Prop :=
  (∀ i, i < 123 → readWb t.wb i = .poison) ∧ t.kv = false ∧ t.fv = false ∧ t.cq = [] ∧ t.din = [] ∧ t.dout = [] ∧
    t.fault = false ∧ t.errcode = 0 ∧ t.errcmd = 0 ∧ t.errinfo = 0

/-- With the generator table `rom`, RSBLK with `d` and `k` turns the data bytes `data` at the head of DIN into the EC bytes
`ec`, from every state that has them there and room in DOUT (41_reed_solomon.md R130). -/
def EcBytes (rom : GenRom) (d k : Nat) (data ec : List Byte) : Prop :=
  ∀ s : State, s.genRom = rom → d ≤ s.din.length → s.din.take d = data → s.dout.length + k ≤ Config.doutDepth →
    ∃ t, exec (.rsblk d k) s = .next t ∧ t.dout = s.dout ++ ec

/-- A sum in GF(256): the XOR of `f 0, …, f (n−1)` (R113). -/
def xorSum (n : Nat) (f : Nat → Byte) : Byte := (List.range n).foldl (fun acc i => acc ^^^ f i) 0

/-- The value of a polynomial, highest coefficient first (00_scope.md R17), at `x`. -/
def evalPoly (x : Byte) (p : List Byte) : Byte := p.foldl (fun acc c => gfmul acc x ^^^ c) 0

/-- Coefficient `n`, counted from the highest, of the product of two polynomials written highest coefficient first. -/
def productCoeff (p q : List Byte) (n : Nat) : Byte := xorSum (n + 1) fun i => gfmul (p.getD i 0) (q.getD (n - i) 0)

/-- The monic generator polynomial as the table gives it, the leading 1 put back (10_state.md R29). -/
def romGenerator (rom : GenRom) (k : Nat) : List Byte := 1 :: (rom.row k).map alog

/-- `p(x)·(x − r)`, highest coefficient first. -/
def mulRoot (p : List Byte) (r : Byte) : List Byte := List.zipWith (· ^^^ ·) (p ++ [0]) (0 :: p.map (gfmul r))

/-- `g_k(x) = (x − α^0)(x − α^1) ··· (x − α^(k−1))`, highest coefficient first (R30). -/
def productGenerator (k : Nat) : List Byte := (List.range k).foldl (fun p i => mulRoot p (alog i)) [1]

/-- Every row of the table holds the logs of the coefficients of `g_k(x)`, which is monic of degree `k` (R30). -/
def RootProducts (rom : GenRom) : Prop :=
  ∀ k ∈ rom.kSet, (productGenerator k).length = k + 1 ∧ (productGenerator k).head? = some 1 ∧
    ∀ m, m < k → ∃ g, rom.gen k m = some g ∧ log ((productGenerator k).getD (m + 1) 0) = some g

/-- Multiplication by `x` of a byte as a polynomial modulo `x^8 + x^4 + x^3 + x^2 + 1` (00_scope.md R16). -/
def timesX (b : Byte) : Byte := (b <<< 1) ^^^ (if b.getLsbD 7 then 0x1D else 0)

/-- Multiplication of two bytes as polynomials modulo `x^8 + x^4 + x^3 + x^2 + 1` (R16), with no table. -/
def polyMul (a b : Byte) : Byte := xorSum 8 fun i => if a.getLsbD i then timesX^[i] b else 0

/-- `q · 0x537` over GF(2), for `q` of degree at most 4. -/
def mulBch (q : BitVec 5) : BitVec 15 :=
  (List.range 5).foldl (fun acc i => if q.getLsbD i then acc ^^^ (0x537 <<< i) else acc) 0

/-- In how many bits two format words differ. -/
def distance (a b : BitVec 15) : Nat := (List.range 15).countP fun i => a.getLsbD i != b.getLsbD i

/-- The commands that put one block into WB and run its division, without EMIT (30_encoding.md R89). -/
def primitiveDivision (k : Nat) (vs : List Byte) : List Instr :=
  .clr :: (loadSequence 0 (vs.map BitVec.toNat) ++ (.setk k :: List.replicate vs.length .step))

/-- The turns that run a list of blocks: the host writes one block's data and its RSBLK, then the sequencer runs it, then the
next block (R140). -/
def symbolTurns : List (Nat × Nat) → List Byte → List Turn
  | [], _ => []
  | (d, k) :: blocks, data =>
    (blockActions d k (data.take d)).map Turn.host ++ .sequencer :: symbolTurns blocks (data.drop d)

/-- `ecs` are the EC bytes of the blocks, each block taking the next of the data bytes (R140). -/
def SymbolEcBytes (rom : GenRom) : List (Nat × Nat) → List Byte → List (List Byte) → Prop
  | [], _, ecs => ecs = []
  | (d, k) :: blocks, data, ecs =>
    ∃ ec rest, ecs = ec :: rest ∧ EcBytes rom d k (data.take d) ec ∧ ec.length = k ∧
      SymbolEcBytes rom blocks (data.drop d) rest

end Sys2Proof.Claims

open Sys2Proof.Claims

/-! ## The step -/

/-- 40_control.md R100: the sequencer's step runs the command that the head of CQ decodes to. -/
def Obligations.StepRunsDecodedCommand : Prop :=
  ∀ (s t : State) (w : Word) (rest : List Word) (i : Instr),
    SequencerTurn s t → s.fault = false → s.cq = w :: rest → decode w = some i → step s = exec i t

/-- 40_control.md R100, 60_exceptions.md R172, R187: halted by a fault, or with CQ empty, the sequencer has no step, and all
state persists. -/
def Obligations.NoSequencerStepWhileHaltedOrIdle : Prop :=
  ∀ s t : State, SequencerTurn s t → (s.fault = true ∨ s.cq = []) → step s = .next t

/-- 30_encoding.md R85, R86: a word with a reserved opcode or a reserved bit set raises ILLEGAL_CMD at the head of CQ, and a
word is legal exactly when it belongs to a row of the opcode map. -/
def Obligations.IllegalWordsRaiseIllegalCmd : Prop :=
  (∀ w : Word, (∃ r ∈ rows, w &&& r.1 = r.2) ↔ ∃ i, decode w = some i) ∧
  (∀ w : Word, 9 ≤ (w.extractLsb' 28 4).toNat → ¬ ∃ r ∈ rows, w &&& r.1 = r.2) ∧
  (∀ (s t : State) (w : Word) (rest : List Word),
    SequencerTurn s t → s.fault = false → s.cq = w :: rest → (¬ ∃ r ∈ rows, w &&& r.1 = r.2) →
      step s = .next (faultEntry 0x01 0 w t))

/-- 70_reset_and_hazards.md R192: after reset the first command is the first word the host writes to CMD, whatever the
generator table. -/
def Obligations.FirstCommandIsFirstWordWritten : Prop :=
  ∀ (rom : GenRom) (w : Word) (i : Instr), decode w = some i →
    Host.Core.run Sys2Proof.core 2
        { State.reset with genRom := rom, turns := [.host (.write Config.rsbchBase 32 w), .sequencer] } =
      exec i { State.reset with genRom := rom, cq := [w] }

/-! ## Encoding -/

/-- 30_encoding.md R83, R84, R87: each word decodes to the row it belongs to, with the operands its fields hold, or to nothing. -/
def Obligations.DecodingFollowsTheOpcodeMap : Prop :=
  ∀ w : Word,
    (w &&& 0xFFFFFFFF = 0x00000000 → decode w = some .nop) ∧
    (w &&& 0xFFFFFFFF = 0x10000000 → decode w = some .clr) ∧
    (w &&& 0xFF00FF00 = 0x20000000 → decode w = some (.ldb (fieldA w) (fieldB w))) ∧
    (w &&& 0xFFFFFF00 = 0x30000000 → decode w = some (.setk (fieldB w))) ∧
    (w &&& 0xFFFFFFFF = 0x40000000 → decode w = some .step) ∧
    (w &&& 0xFF00FFFF = 0x50000000 → decode w = some (.rdb (fieldA w))) ∧
    (w &&& 0xFFFFFFFF = 0x60000000 → decode w = some .emit) ∧
    (w &&& 0xFF00FF00 = 0x70000000 → decode w = some (.rsblk (fieldA w) (fieldB w))) ∧
    (w &&& 0xFFFFFFE0 = 0x80000000 →
      decode w = some (.fmt (w.extractLsb' 3 2).toNat (w.extractLsb' 0 3).toNat)) ∧
    ((∀ r ∈ rows, w &&& r.1 ≠ r.2) → decode w = none)

/-- 30_encoding.md R82 to R88: decoding the word of a well-formed command gives the command back, with every operand. -/
def Obligations.DecodeOfEncodeIsTheCommand : Prop :=
  ∀ i : Instr, i.wellFormed = true → decode (encode i) = some i

/-- 30_encoding.md R84 to R87: a legal word is the word of the command it decodes to, which is well formed. -/
def Obligations.EncodeOfDecodeIsTheWord : Prop :=
  ∀ (w : Word) (i : Instr), decode w = some i → i.wellFormed = true ∧ encode i = w

/-- 30_encoding.md R90: the spec's encoding examples, read in both directions, and its illegal words. -/
def Obligations.SpecEncodingExamplesDecode : Prop :=
  (∀ p ∈ [(Instr.ldb 8 236, 0x200800EC), (.setk 17, 0x30000011), (.rsblk 11 22, 0x700B0016), (.rsblk 123 30, 0x707B001E),
      (.rdb 122, 0x507A0000), (.fmt EcLevel.L.index 0, 0x80000000), (.fmt EcLevel.H.index 7, 0x8000001F),
      (.fmt EcLevel.M.index 5, 0x8000000D)], encode p.1 = p.2 ∧ decode p.2 = some p.1) ∧
  decode 0x90000000 = none ∧ decode 0x20000100 = none ∧ decode 0x80000020 = none

/-- 30_encoding.md R88, R89: a program is assembled exactly when every line is accepted, and then to the words of its
expansion, each of which decodes to the command it was written for. R88 refuses the operand that does not fit; that the whole
program is then refused, and that LDSEQ may stand without operands, is the model's choice (log entry 10). -/
def Obligations.AssembledProgramsDecodeToTheirExpansion : Prop :=
  ∀ lines : List AsmLine,
    (lines.all AsmLine.wellFormed = true → ∃ ws, assemble lines = some ws ∧
      ws.map decode = (lines.flatMap AsmLine.expand).map some) ∧
    (lines.all AsmLine.wellFormed = false → assemble lines = none)

/-! ## Faults and holds -/

/-- 60_exceptions.md R173, R174: the first failing check, in the spec's order, decides the fault, before any hold; ERRINFO is
the value R173 names and ERRCMD the whole faulting word. -/
def Obligations.FirstFailingCheckIsReported : Prop :=
  ∀ (s t : State) (w : Word) (rest : List Word),
    SequencerTurn s t → s.fault = false → s.cq = w :: rest →
      (decode w = none → step s = .next (faultEntry 0x01 0 w t)) ∧
      (∀ i code info, decode w = some i → FaultsWith i t code info → step s = .next (faultEntry code info w t))

/-- 40_control.md R101: a command that has passed every fault check is held exactly while its condition holds; a held command
stays, and the sequencer's turn changes nothing; only a host's write of DIN, read of DOUT or reset can lift the hold. -/
def Obligations.CommandsAreHeldExactlyOnTheirCondition : Prop :=
  (∀ (s : State) (i : Instr) (w : Word) (rest : List Word), s.cq = w :: rest → NoFault i s →
    (exec i s = .next s ↔ HoldCondition i s)) ∧
  (∀ (s t : State) (i : Instr) (w : Word) (rest : List Word), SequencerTurn s t → s.fault = false →
    s.cq = w :: rest → decode w = some i → NoFault i s → HoldCondition i s → step s = .next t) ∧
  (∀ (s t : State) (i : Instr) (w : Word) (rest : List Word), s.fault = false → s.cq = w :: rest →
    decode w = some i → NoFault i s → HoldCondition i s → step s = .next t →
      (t.fault = false ∧ t.cq.head? = some w ∧ NoFault i t ∧ HoldCondition i t) ∨
      (∃ ts, s.turns = .host (.read (Config.rsbchBase + 0x08) 32) :: ts ∨
        (∃ v, s.turns = .host (.write (Config.rsbchBase + 0x04) 32 v) :: ts) ∨
        s.turns = .host .rst :: ts ∨ s.turns = .host (.write (Config.rsbchBase + 0x28) 32 1) :: ts))

/-- 40_control.md R102, 60_exceptions.md R176: a command at the head of CQ always goes to a next state, and it is all or
nothing: held, it changes nothing; faulting, it has exactly the effects of fault entry; completing, it leaves CQ and writes no
part of the fault state. -/
def Obligations.CommandsAreAllOrNothing : Prop :=
  ∀ (i : Instr) (s : State) (w : Word) (rest : List Word), s.cq = w :: rest →
    (NoFault i s ∧ HoldCondition i s ∧ exec i s = .next s) ∨
    (∃ code info, FaultsWith i s code info ∧ exec i s = .next (faultEntry code info w s)) ∨
    (NoFault i s ∧ ¬ HoldCondition i s ∧ ∃ t, exec i s = .next t ∧ t.cq = rest ∧ t.fault = s.fault ∧
      t.errcode = s.errcode ∧ t.errcmd = s.errcmd ∧ t.errinfo = s.errinfo)

/-- 70_reset_and_hazards.md R200: with the bytes it needs in DIN and an empty DOUT no command is held, whatever capacities the
platform chose; and DIN has room for the bytes any RSBLK can need. -/
def Obligations.EveryHoldCanBeLifted : Prop :=
  ∀ (i : Instr) (s : State), s.Inv → NoFault i s → s.dout = [] →
    (∀ d k, i = .rsblk d k → d ≤ s.din.length) →
      ¬ HoldCondition i s ∧ (∀ d k, i = .rsblk d k → d ≤ Config.dinDepth)

/-! ## The commands -/

/-- 40_control.md R105: NOP. -/
def Obligations.NopLeavesTheQueueAndDoesNothing : Prop :=
  RowOf 0x0 0x00000000 0xFFFFFFFF (fun _ => .nop) ∧
  (∀ s : State, exec .nop s = .next { s with cq := s.cq.tail }) ∧
  (∀ s t : State, SequencerTurn s t → s.fault = true → step s = .next t)

/-- 41_reed_solomon.md R120: CLR. -/
def Obligations.ClrZeroesTheBuffer : Prop :=
  RowOf 0x1 0x10000000 0xFFFFFFFF (fun _ => .clr) ∧
  (∀ s : State, ∃ t, exec .clr s = .next t ∧ t = { s with cq := s.cq.tail, wb := t.wb } ∧
    ∀ i, i < 123 → readWb t.wb i = .byte 0)

/-- 41_reed_solomon.md R121: LDB. -/
def Obligations.LdbWritesOneCell : Prop :=
  RowOf 0x2 0x20000000 0xFF00FF00 (fun w => .ldb (fieldA w) (fieldB w)) ∧
  (∀ (s : State) (idx val : Nat), idx < 123 → ∃ t, exec (.ldb idx val) s = .next t ∧
    t = { s with cq := s.cq.tail, wb := t.wb } ∧ readWb t.wb idx = .byte (BitVec.ofNat 8 val) ∧
    ∀ j, j ≠ idx → readWb t.wb j = readWb s.wb j) ∧
  (∀ (s : State) (w : Word) (rest : List Word) (idx val : Nat), s.cq = w :: rest → 123 ≤ idx →
    exec (.ldb idx val) s = .next (faultEntry 0x02 (BitVec.ofNat 8 idx) w s))

/-- 41_reed_solomon.md R122: SETK, for every K_SET that R8 admits. -/
def Obligations.SetkSelectsTheEcWordCount : Prop :=
  RowOf 0x3 0x30000000 0xFFFFFF00 (fun w => .setk (fieldB w)) ∧
  (∀ (s : State) (k : Nat), s.genRom.wf = true → k ∈ s.genRom.kSet → ∃ t, exec (.setk k) s = .next t ∧
    t = { s with cq := s.cq.tail, kr := BitVec.ofNat 8 k, kv := true } ∧
    ((statusWord t).extractLsb' 16 8).toNat = k) ∧
  (∀ (s : State) (w : Word) (rest : List Word) (k : Nat), s.cq = w :: rest → k ∉ s.genRom.kSet →
    exec (.setk k) s = .next (faultEntry 0x03 (BitVec.ofNat 8 k) w s))

/-- 41_reed_solomon.md R123: STEP; its division step is that of R114. -/
def Obligations.StepIsOneDivisionStep : Prop :=
  RowOf 0x4 0x40000000 0xFFFFFFFF (fun _ => .step) ∧
  (∀ s : State, s.kv = true → readWb s.wb 0 ≠ .poison →
    exec .step s = .next { s with cq := s.cq.tail, wb := divStep s.genRom s.kr.toNat s.wb }) ∧
  (∀ (s : State) (w : Word) (rest : List Word), s.cq = w :: rest → s.kv = false →
    exec .step s = .next (faultEntry 0x05 0 w s)) ∧
  (∀ (s : State) (w : Word) (rest : List Word), s.cq = w :: rest → s.kv = true → readWb s.wb 0 = .poison →
    exec .step s = .next (faultEntry 0x06 0 w s))

/-- 41_reed_solomon.md R114: the division step, cell by cell, for every generator table that R8 and R29 admit. -/
def Obligations.DivisionStepShiftsThenXorsTheGenerator : Prop :=
  ∀ (rom : GenRom) (k : Nat) (wb : Wb) (lead : Byte), rom.wf = true → k ∈ rom.kSet → readWb wb 0 = .byte lead →
    let shifted := fun i => if i = 122 then WbCell.byte 0 else readWb wb (i + 1)
    (lead = 0 → ∀ i, i < 123 → readWb (divStep rom k wb) i = shifted i) ∧
    (lead ≠ 0 → ∃ e, log lead = some e ∧
      (∀ m, m < k → ∃ g, rom.gen k m = some g ∧
        readWb (divStep rom k wb) m = (shifted m).xor (.byte (alog ((g + e) % 255)))) ∧
      (∀ i, k ≤ i → i < 123 → readWb (divStep rom k wb) i = shifted i))

/-- 41_reed_solomon.md R124: RDB. -/
def Obligations.RdbSendsOneCell : Prop :=
  RowOf 0x5 0x50000000 0xFF00FFFF (fun w => .rdb (fieldA w)) ∧
  (∀ (s : State) (idx : Nat) (b : Byte), idx < 123 → readWb s.wb idx = .byte b →
    s.dout.length + 1 ≤ Config.doutDepth →
      exec (.rdb idx) s = .next { s with cq := s.cq.tail, dout := s.dout ++ [b] }) ∧
  (∀ (s : State) (idx : Nat) (b : Byte), idx < 123 → readWb s.wb idx = .byte b →
    s.dout.length + 1 > Config.doutDepth → exec (.rdb idx) s = .next s) ∧
  (∀ (s : State) (w : Word) (rest : List Word) (idx : Nat), s.cq = w :: rest → 123 ≤ idx →
    exec (.rdb idx) s = .next (faultEntry 0x02 (BitVec.ofNat 8 idx) w s)) ∧
  (∀ (s : State) (w : Word) (rest : List Word) (idx : Nat), s.cq = w :: rest → idx < 123 →
    readWb s.wb idx = .poison → exec (.rdb idx) s = .next (faultEntry 0x06 (BitVec.ofNat 8 idx) w s))

/-- 41_reed_solomon.md R125: EMIT. -/
def Obligations.EmitSendsTheEcCodewords : Prop :=
  RowOf 0x6 0x60000000 0xFFFFFFFF (fun _ => .emit) ∧
  (∀ (s : State) (out : List Byte), s.kv = true → out.length = s.kr.toNat →
    (∀ m, m < s.kr.toNat → readWb s.wb m = .byte (out.getD m 0)) →
    s.dout.length + s.kr.toNat ≤ Config.doutDepth →
      exec .emit s = .next { s with cq := s.cq.tail, dout := s.dout ++ out }) ∧
  (∀ s : State, s.kv = true → (∀ m, m < s.kr.toNat → readWb s.wb m ≠ .poison) →
    s.dout.length + s.kr.toNat > Config.doutDepth → exec .emit s = .next s) ∧
  (∀ (s : State) (w : Word) (rest : List Word), s.cq = w :: rest → s.kv = false →
    exec .emit s = .next (faultEntry 0x05 0 w s)) ∧
  (∀ (s : State) (w : Word) (rest : List Word) (m : Nat), s.cq = w :: rest → s.kv = true → m < s.kr.toNat →
    readWb s.wb m = .poison → (∀ j, j < m → readWb s.wb j ≠ .poison) →
      exec .emit s = .next (faultEntry 0x06 (BitVec.ofNat 8 m) w s))

/-- 41_reed_solomon.md R130: RSBLK, for every K_SET that R8 admits. -/
def Obligations.RsblkGeneratesOneBlock : Prop :=
  RowOf 0x7 0x70000000 0xFF00FF00 (fun w => .rsblk (fieldA w) (fieldB w)) ∧
  (∀ (s : State) (d k : Nat), s.genRom.wf = true → d ≤ 123 → k ∈ s.genRom.kSet → d ≤ s.din.length →
    s.dout.length + k ≤ Config.doutDepth → ∃ (t : State) (loaded : Wb) (out : List Byte), exec (.rsblk d k) s = .next t ∧
      t = { s with cq := s.cq.tail, wb := t.wb, kr := BitVec.ofNat 8 k, kv := true, din := s.din.drop d,
                   dout := s.dout ++ out } ∧
      (∀ i, i < 123 → readWb loaded i = .byte (if i < d then s.din.getD i 0 else 0)) ∧
      t.wb = (divStep s.genRom k)^[d] loaded ∧
      out.length = k ∧ (∀ m, m < k → readWb t.wb m = .byte (out.getD m 0)) ∧
      ((statusWord t).extractLsb' 16 8).toNat = k) ∧
  (∀ (s : State) (d k : Nat), d ≤ 123 → k ∈ s.genRom.kSet →
    (s.din.length < d ∨ s.dout.length + k > Config.doutDepth) → exec (.rsblk d k) s = .next s) ∧
  (∀ (s : State) (w : Word) (rest : List Word) (d k : Nat), s.cq = w :: rest → 123 < d →
    exec (.rsblk d k) s = .next (faultEntry 0x04 (BitVec.ofNat 8 d) w s)) ∧
  (∀ (s : State) (w : Word) (rest : List Word) (d k : Nat), s.cq = w :: rest → d ≤ 123 → k ∉ s.genRom.kSet →
    exec (.rsblk d k) s = .next (faultEntry 0x03 (BitVec.ofNat 8 k) w s))

/-- 42_bch_format.md R151, R152: FMT. -/
def Obligations.FmtComputesTheFormatWord : Prop :=
  RowOf 0x8 0x80000000 0xFFFFFFE0 (fun w => .fmt (w.extractLsb' 3 2).toNat (w.extractLsb' 0 3).toNat) ∧
  (∀ (s : State) (level mask : Nat), level < 4 → mask < 8 →
    let lEncoded := level ^^^ 1
    let five := lEncoded * 8 + mask
    exec (.fmt level mask) s =
      .next { s with
        cq := s.cq.tail
        fmtr := BitVec.ofNat 15 (five * 1024 + (bchRem (BitVec.ofNat 5 five)).toNat) ^^^ 0x5412
        fv := true })

/-- 42_bch_format.md R154: the structure of the format word, and the distance between two of them. -/
def Obligations.FormatWordsAreBchCodewords : Prop :=
  (∀ (s t : State) (level mask : Nat), level < 4 → mask < 8 → exec (.fmt level mask) s = .next t →
    (∃ q : BitVec 5, t.fmtr ^^^ 0x5412 = mulBch q) ∧
    ((t.fmtr ^^^ 0x5412).extractLsb' 10 5).toNat = (level ^^^ 1) * 8 + mask ∧
    (t.fmtr ^^^ 0x5412).extractLsb' 0 10 = bchRem (BitVec.ofNat 5 ((level ^^^ 1) * 8 + mask))) ∧
  (∀ (s t u : State) (l₁ m₁ l₂ m₂ : Nat), l₁ < 4 → m₁ < 8 → l₂ < 4 → m₂ < 8 → (l₁, m₁) ≠ (l₂, m₂) →
    exec (.fmt l₁ m₁) s = .next t → exec (.fmt l₂ m₂) s = .next u → 7 ≤ distance t.fmtr u.fmtr)

/-! ## The tables -/

/-- 10_state.md R27: ALOG holds the powers of `α`, by the spec's recurrence. -/
def Obligations.AlogFollowsItsRecurrence : Prop :=
  alog 0 = 1 ∧ alogRom.length = 255 ∧
  ∀ i, i < 254 → (alog (i + 1)).toNat = ((alog i).toNat <<< 1) ^^^ (if 128 ≤ (alog i).toNat then 0x11D else 0)

/-- 10_state.md R28: LOG inverts ALOG, and LOG of 0 has no value. -/
def Obligations.LogInvertsAlog : Prop :=
  log 0 = none ∧
  ∀ b : Byte, b ≠ 0 → ∃ i, i < 255 ∧ log b = some i ∧ alog i = b ∧ ∀ j, j < 255 → alog j = b → j = i

/-- 10_state.md R30: the rows of the spec's table, the default, are the logs of the coefficients of
`(x − α^0) ··· (x − α^(k−1))`. -/
def Obligations.GeneratorRowsAreTheRootProducts : Prop := RootProducts State.reset.genRom

/-- 00_scope.md R16, 41_reed_solomon.md R111: multiplication by the tables is multiplication of polynomials modulo 0x11D. -/
def Obligations.TableProductIsFieldProduct : Prop := ∀ a b : Byte, gfmul a b = polyMul a b

/-! ## Whole-machine rules -/

/-- 10_state.md R22 to R26, R31 to R33, R52, R74: which commands write which state, and that none writes the parameter. -/
def Obligations.OnlyTheNamedCommandsWriteEachState : Prop :=
  ∀ (i : Instr) (s t : State), exec i s = .next t →
    (t.wb ≠ s.wb → i = .clr ∨ (∃ idx val, i = .ldb idx val) ∨ i = .step ∨ ∃ d k, i = .rsblk d k) ∧
    ((t.kr ≠ s.kr ∨ t.kv ≠ s.kv) → (∃ k, i = .setk k) ∨ ∃ d k, i = .rsblk d k) ∧
    ((t.fmtr ≠ s.fmtr ∨ t.fv ≠ s.fv) → ∃ level mask, i = .fmt level mask) ∧
    (t.din ≠ s.din → ∃ d k, i = .rsblk d k) ∧
    (t.dout ≠ s.dout → (∃ idx, i = .rdb idx) ∨ i = .emit ∨ ∃ d k, i = .rsblk d k) ∧
    (t.cq = s.cq ∨ t.cq = s.cq.tail) ∧ t.turns = s.turns ∧ t.busData = s.busData ∧ t.genRom = s.genRom

/-- 60_exceptions.md R177: no command returns from a fault; while FAULT = 1 only the RST input or a write of 1 to CTRL changes
the fault state, and it clears all four parts; so the fault state describes the first fault since reset. -/
def Obligations.OnlyResetLeavesTheFaultState : Prop :=
  ∀ s t : State, s.fault = true → step s = .next t →
    (t.fault = true ∧ t.errcode = s.errcode ∧ t.errcmd = s.errcmd ∧ t.errinfo = s.errinfo ∧
      (s.turns = [] ∨ s.turns.head? = some .sequencer → t.cq = s.cq)) ∨
    ((∃ ts, s.turns = .host .rst :: ts ∨
        s.turns = .host (.write (Config.rsbchBase + 0x28) 32 1) :: ts) ∧
      t.fault = false ∧ t.errcode = 0 ∧ t.errcmd = 0 ∧ t.errinfo = 0)

/-- 10_state.md R34, 60_exceptions.md R172: only fault entry and reset write FAULT, ERRCODE, ERRCMD and ERRINFO. -/
def Obligations.FaultStateIsWrittenByEntryAndResetOnly : Prop :=
  ∀ s t : State, step s = .next t →
    (t.fault = s.fault ∧ t.errcode = s.errcode ∧ t.errcmd = s.errcmd ∧ t.errinfo = s.errinfo) ∨
    (∃ u w rest code info, SequencerTurn s u ∧ s.fault = false ∧ s.cq = w :: rest ∧ t = faultEntry code info w u) ∨
    ((∃ a u, HostTurn a s u) ∧ ResetState t)

/-- 42_bch_format.md R157: FMT reads and changes nothing of the Reed–Solomon family, and no other command reads or changes
FMTR or FV. -/
def Obligations.FormatAndReedSolomonAreIndependent : Prop :=
  (∀ (s u : State) (level mask : Nat), ∃ t v, exec (.fmt level mask) s = .next t ∧ exec (.fmt level mask) u = .next v ∧
    t.fmtr = v.fmtr ∧ t.fv = v.fv ∧ t = { s with cq := s.cq.tail, fmtr := t.fmtr, fv := t.fv }) ∧
  (∀ (i : Instr) (s t : State) (f : BitVec 15) (v : Bool), (∀ level mask, i ≠ .fmt level mask) →
    exec i s = .next t →
      t.fmtr = s.fmtr ∧ t.fv = s.fv ∧ exec i { s with fmtr := f, fv := v } = .next { t with fmtr := f, fv := v })

/-- 20_memory.md R70: the queues are first in, first out. A step that is no reset adds to the tail of a queue or takes from its
head, and never both. -/
def Obligations.QueuesAreFirstInFirstOut : Prop :=
  ∀ s t : State, step s = .next t →
    ResetState t ∨
    ((t.cq = s.cq ∨ (∃ w, t.cq = s.cq ++ [w]) ∨ ∃ w, s.cq = w :: t.cq) ∧
      ((∃ b, t.din = s.din ++ [b]) ∨ ∃ taken, s.din = taken ++ t.din) ∧
      ((∃ out, t.dout = s.dout ++ out) ∨ ∃ b, s.dout = b :: t.dout))

/-! ## Host registers -/

/-- 10_state.md R37: CMD. -/
def Obligations.CmdWriteQueuesTheWord : Prop :=
  (∀ (s t : State) (w : Word), HostTurn (.write Config.rsbchBase 32 w) s t →
    (s.cq.length < Config.cqDepth → step s = .next { t with cq := s.cq ++ [w] }) ∧
    (s.cq.length = Config.cqDepth → step s = .refused .commandQueueFull)) ∧
  (∀ s t : State, HostTurn (.read Config.rsbchBase 32) s t → step s = .refused .readOfWriteOnly)

/-- 10_state.md R38: DIN. A write with both grounds for a refusal, reserved bits and a full queue, is refused for the reserved
bits: R38 gives no order, so that name is the model's choice (log entry 6). -/
def Obligations.DinWriteQueuesTheByte : Prop :=
  (∀ (s t : State) (w : Word), HostTurn (.write (Config.rsbchBase + 0x04) 32 w) s t →
    (w.toNat < 256 → s.din.length < Config.dinDepth →
      step s = .next { t with din := s.din ++ [BitVec.ofNat 8 w.toNat] }) ∧
    (256 ≤ w.toNat → step s = .refused .dinReservedBits) ∧
    (w.toNat < 256 → s.din.length = Config.dinDepth → step s = .refused .inputQueueFull)) ∧
  (∀ s t : State, HostTurn (.read (Config.rsbchBase + 0x04) 32) s t → step s = .refused .readOfWriteOnly)

/-- 10_state.md R39: DOUT. -/
def Obligations.DoutReadTakesTheHeadByte : Prop :=
  (∀ s t : State, HostTurn (.read (Config.rsbchBase + 0x08) 32) s t →
    (∀ b rest, s.dout = b :: rest →
      step s = .next { t with dout := rest, busData := some (BitVec.ofNat 32 b.toNat) }) ∧
    (s.dout = [] → step s = .refused .outputQueueEmpty)) ∧
  (∀ (s t : State) (w : Word), HostTurn (.write (Config.rsbchBase + 0x08) 32 w) s t →
    step s = .refused .writeOfReadOnly)

/-- 10_state.md R40: STATUS, field by field. -/
def Obligations.StatusShowsItsFields : Prop :=
  (∀ s t : State, HostTurn (.read (Config.rsbchBase + 0x0C) 32) s t →
    ∃ v : Word, step s = .next { t with busData := some v } ∧
      v.getLsbD 0 = s.fault ∧ v.getLsbD 1 = s.kv ∧ v.getLsbD 2 = s.fv ∧
      (v.getLsbD 3 = true ↔ s.fault = false ∧ ∃ w rest i, s.cq = w :: rest ∧ decode w = some i ∧ NoFault i s ∧
        HoldCondition i s) ∧
      (v.getLsbD 4 = true ↔ s.cq = []) ∧
      v.extractLsb' 5 3 = 0 ∧ v.extractLsb' 8 8 = s.errcode ∧
      v.extractLsb' 16 8 = (if s.kv then s.kr else 0) ∧ v.extractLsb' 24 8 = 0) ∧
  (∀ (s t : State) (w : Word), HostTurn (.write (Config.rsbchBase + 0x0C) 32 w) s t →
    step s = .refused .writeOfReadOnly)

/-- 10_state.md R41: FMTR. -/
def Obligations.FmtrReadShowsTheFormatWord : Prop :=
  (∀ s t : State, HostTurn (.read (Config.rsbchBase + 0x10) 32) s t →
    (s.fv = true → step s = .next { t with busData := some (BitVec.ofNat 32 s.fmtr.toNat) }) ∧
    (s.fv = false → step s = .refused .formatUnset)) ∧
  (∀ (s t : State) (w : Word), HostTurn (.write (Config.rsbchBase + 0x10) 32 w) s t →
    step s = .refused .writeOfReadOnly)

/-- 10_state.md R42 to R46: ERRCMD, ERRINFO and the count registers. A count below 2^32 is shown whole; a larger one
is a free value (log entry 9), of which nothing is said. -/
def Obligations.ErrorAndCountRegistersRead : Prop :=
  (∀ s t : State, HostTurn (.read (Config.rsbchBase + 0x14) 32) s t →
    step s = .next { t with busData := some s.errcmd } ∧ (s.Inv → s.fault = false → s.errcmd = 0)) ∧
  (∀ s t : State, HostTurn (.read (Config.rsbchBase + 0x18) 32) s t →
    step s = .next { t with busData := some (BitVec.ofNat 32 s.errinfo.toNat) }) ∧
  (∀ s t : State, HostTurn (.read (Config.rsbchBase + 0x1C) 32) s t → s.cq.length < 2 ^ 32 →
    ∃ v : Word, step s = .next { t with busData := some v } ∧ v.toNat = s.cq.length) ∧
  (∀ s t : State, HostTurn (.read (Config.rsbchBase + 0x20) 32) s t → s.din.length < 2 ^ 32 →
    ∃ v : Word, step s = .next { t with busData := some v } ∧ v.toNat = s.din.length) ∧
  (∀ s t : State, HostTurn (.read (Config.rsbchBase + 0x24) 32) s t → s.dout.length < 2 ^ 32 →
    ∃ v : Word, step s = .next { t with busData := some v } ∧ v.toNat = s.dout.length) ∧
  (∀ (s t : State) (w : Word) (off : Nat), off ∈ [0x14, 0x18, 0x1C, 0x20, 0x24] →
    HostTurn (.write (Config.rsbchBase + off) 32 w) s t → step s = .refused .writeOfReadOnly)

/-- 10_state.md R47: CTRL. That the host's turns stay is the model's reading (log entry 12). -/
def Obligations.CtrlWriteOfOneResets : Prop :=
  (∀ (s t : State) (w : Word), HostTurn (.write (Config.rsbchBase + 0x28) 32 w) s t →
    (w = 1 → ∃ u, step s = .next u ∧ ResetState u ∧ u.turns = t.turns) ∧
    (w = 0 → step s = .next t) ∧
    (2 ≤ w.toNat → step s = .refused .ctrlReservedBits)) ∧
  (∀ s t : State, HostTurn (.read (Config.rsbchBase + 0x28) 32) s t → step s = .refused .readOfWriteOnly)

/-- 10_state.md R48, 20_memory.md R63: an access of another width, at a misaligned offset or at a reserved offset is refused. -/
def Obligations.MalformedAccessesAreRefused : Prop :=
  ∀ (s t : State) (off width : Nat) (w : Word), off < 0x100 → (width ≠ 32 ∨ off % 4 ≠ 0 ∨ 0x2C ≤ off) →
    (HostTurn (.read (Config.rsbchBase + off) width) s t → ∃ why, step s = .refused why) ∧
    (HostTurn (.write (Config.rsbchBase + off) width w) s t → ∃ why, step s = .refused why)

/-! ## Reset -/

/-- 10_state.md R51: the values after reset, with the derived STATUS and counts. -/
def Obligations.ResetValuesAreTheSpecs : Prop :=
  ResetState State.reset ∧ statusWord State.reset = 0x00000010 ∧
    countWord State.reset.cq.length = 0 ∧ countWord State.reset.din.length = 0 ∧
    countWord State.reset.dout.length = 0

/-- 70_reset_and_hazards.md R190: the RST input and a write of 1 to CTRL have the same effect, a reset, from every state,
and the ROM is not touched. That the host's turns and its last value read stay is the model's reading (log entry 12). -/
def Obligations.BothResetCausesReset : Prop :=
  ∀ (s t : State) (a : HostAction), (a = .rst ∨ a = .write (Config.rsbchBase + 0x28) 32 1) → HostTurn a s t →
    ∃ u, step s = .next u ∧ ResetState u ∧ u.genRom = s.genRom ∧ u.turns = t.turns ∧ u.busData = t.busData

/-! ## Invariants -/

/-- The invariant of the block's state holds after reset, with the default table and with every other that R8 admits. -/
def Obligations.ResetMeetsTheInvariant : Prop :=
  State.reset.Inv ∧ ∀ rom : GenRom, rom.wf = true → State.Inv { State.reset with genRom := rom }

/-- Every step, the host's and the sequencer's, from every state that meets the invariant, keeps it. -/
def Obligations.EveryStepKeepsTheInvariant : Prop := ∀ s t : State, s.Inv → step s = .next t → t.Inv

/-! ## Reed–Solomon laws -/

/-- 41_reed_solomon.md R131: RSBLK equals its primitive expansion, for every generator table that R8 and R29 admit. That
each program stands whole in CQ and runs on the sequencer's turns alone is the model's form (log entry 2). -/
def Obligations.BlockCommandEqualsItsPrimitives : Prop :=
  ∀ (s : State) (d k : Nat) (vs rest : List Byte),
    s.genRom.wf = true → s.fault = false → s.din = vs ++ rest → vs.length = d → d ≤ 123 → k ∈ s.genRom.kSet →
    s.dout.length + k ≤ Config.doutDepth →
      ∃ t u, CleanRun 1 (s.withProgram [.rsblk d k]) t ∧
        CleanRun (2 * d + 3) (s.withProgram (AsmLine.rsprim k (vs.map BitVec.toNat)).expand) u ∧
        t.cq = [] ∧ u.cq = [] ∧ t.wb = u.wb ∧ t.kr = u.kr ∧ t.kv = u.kv ∧ t.fmtr = u.fmtr ∧ t.fv = u.fv ∧
        t.dout = u.dout ∧ t.din = rest ∧ u.din = s.din

/-- 41_reed_solomon.md R133: after a block, WB is zero from cell `k` on. That the primitives' program stands whole in CQ and runs
on the sequencer's turns alone is the model's form (log entry 2). -/
def Obligations.CellsPastTheEcBytesAreZero : Prop :=
  (∀ (s : State) (d k : Nat), s.genRom.wf = true → d ≤ 123 → k ∈ s.genRom.kSet → d ≤ s.din.length →
    s.dout.length + k ≤ Config.doutDepth → ∃ t, exec (.rsblk d k) s = .next t ∧
      ∀ m, k ≤ m → m < 123 → readWb t.wb m = .byte 0) ∧
  (∀ (s : State) (d k : Nat) (vs : List Byte), s.genRom.wf = true → s.fault = false → vs.length = d → d ≤ 123 →
    k ∈ s.genRom.kSet →
    ∃ t, CleanRun (2 * d + 2) (s.withProgram (primitiveDivision k vs)) t ∧ t.cq = [] ∧
      ∀ m, k ≤ m → m < 123 → readWb t.wb m = .byte 0)

/-- 41_reed_solomon.md R134: the EC bytes are linear in the data, for every generator table that R8 and R29 admit. -/
def Obligations.EcBytesAreLinear : Prop :=
  (∀ (rom : GenRom) (d k : Nat) (a b : List Byte), rom.wf = true → d ≤ 123 → k ∈ rom.kSet → a.length = d → b.length = d →
    ∃ ea eb, ea.length = k ∧ eb.length = k ∧ EcBytes rom d k a ea ∧ EcBytes rom d k b eb ∧
      EcBytes rom d k (List.zipWith (· ^^^ ·) a b) (List.zipWith (· ^^^ ·) ea eb)) ∧
  (∀ (rom : GenRom) (d k : Nat), rom.wf = true → d ≤ 123 → k ∈ rom.kSet →
    EcBytes rom d k (List.replicate d 0) (List.replicate k 0))

/-- 41_reed_solomon.md R132, first form: the EC bytes are the remainder of `D(x)·x^k` by the generator of the
table, whichever R8 and R29 admit: with some quotient `q`
of `d` coefficients, `D(x)·x^k + R(x) = q(x)·g_k(x)`, coefficient by coefficient. -/
def Obligations.EcBytesAreTheDivisionRemainder : Prop :=
  ∀ (rom : GenRom) (d k : Nat) (data : List Byte), rom.wf = true → d ≤ 123 → k ∈ rom.kSet → data.length = d →
    ∃ ec q : List Byte, ec.length = k ∧ q.length = d ∧ EcBytes rom d k data ec ∧
      ∀ n, n < d + k → (data ++ ec).getD n 0 = productCoeff q (romGenerator rom k) n

/-- 41_reed_solomon.md R132, second form: data followed by its EC bytes vanishes at `α^0, …, α^(k−1)`, for every
table of R30's form, the default among them. -/
def Obligations.CodewordsVanishAtTheRoots : Prop :=
  ∀ (rom : GenRom) (d k : Nat) (data : List Byte), rom.wf = true → RootProducts rom → d ≤ 123 → k ∈ rom.kSet →
    data.length = d → ∃ ec : List Byte, ec.length = k ∧ EcBytes rom d k data ec ∧
      ∀ j, j < k → evalPoly (alog j) (data ++ ec) = 0

/-- 41_reed_solomon.md R140, R141: from reset, the blocks of a symbol, each with the next of the data codewords, give the global EC
output: every block's EC bytes, in group order, then block order. One schedule of turns is run: the model's form (log entries 2
and 17). -/
def Obligations.SymbolEcOutputIsInBlockOrder : Prop :=
  ∀ (rom : GenRom) (groups : List BlockGroup) (data : List Byte), rom.wf = true →
    (∀ b ∈ symbolBlocks groups, b.1 ≤ 123 ∧ b.2 ∈ rom.kSet) →
    data.length = ((symbolBlocks groups).map Prod.fst).sum →
    ((symbolBlocks groups).map Prod.snd).sum ≤ Config.doutDepth →
      ∃ (t : State) (ecs : List (List Byte)),
        CleanRun (symbolTurns (symbolBlocks groups) data).length
          { State.reset with genRom := rom, turns := symbolTurns (symbolBlocks groups) data } t ∧
        (symbolTurns (symbolBlocks groups) data).filterMap
            (fun turn => match turn with | .host a => some a | .sequencer => none) = hostEncodeSymbol groups data ∧
        SymbolEcBytes rom (symbolBlocks groups) data ecs ∧ t.dout = ecs.flatten ∧ t.din = [] ∧ t.cq = []

/-! ## The parameter K_SET -/

/-- 00_scope.md R8, 10_state.md R29, R30: the table after reset has the spec's K_SET; and every table within the constraint has, for
each `k` of its K_SET and no other, a row of `k` entries, with `k` in `1..123`. -/
def Obligations.KSetHasItsDefaultAndConstraint : Prop :=
  State.reset.genRom.kSet = [7, 10, 13, 15, 16, 17, 18, 20, 22, 24, 26, 28, 30] ∧ State.reset.genRom.wf = true ∧
  ∀ (rom : GenRom) (k : Nat), rom.wf = true →
    (k ∈ rom.kSet → 1 ≤ k ∧ k ≤ 123 ∧ ∀ m, (m < k ↔ ∃ g, g < 255 ∧ rom.gen k m = some g)) ∧
    (k ∉ rom.kSet → ∀ m, rom.gen k m = none)

/-- 10_state.md R52, 70_reset_and_hazards.md R193: configuration is not state. No step of either agent, a reset included, changes
the parameter. -/
def Obligations.NoStepChangesTheConfiguration : Prop := ∀ s t : State, step s = .next t → t.genRom = s.genRom
end

