-- ==== Sys2Proof/Laws/State.lean ====
section
/-! SUPPORT. One lemma per field for each operation that updates the state, so that no proof unfolds a record update. -/

namespace Sys2Proof.Machine

/-! ## State.popCommand -/

@[simp] theorem State.popCommand_wb (s : State) : s.popCommand.wb = s.wb := rfl
@[simp] theorem State.popCommand_kr (s : State) : s.popCommand.kr = s.kr := rfl
@[simp] theorem State.popCommand_kv (s : State) : s.popCommand.kv = s.kv := rfl
@[simp] theorem State.popCommand_fmtr (s : State) : s.popCommand.fmtr = s.fmtr := rfl
@[simp] theorem State.popCommand_fv (s : State) : s.popCommand.fv = s.fv := rfl
@[simp] theorem State.popCommand_cq (s : State) : s.popCommand.cq = s.cq.tail := rfl
@[simp] theorem State.popCommand_din (s : State) : s.popCommand.din = s.din := rfl
@[simp] theorem State.popCommand_dout (s : State) : s.popCommand.dout = s.dout := rfl
@[simp] theorem State.popCommand_fault (s : State) : s.popCommand.fault = s.fault := rfl
@[simp] theorem State.popCommand_errcode (s : State) : s.popCommand.errcode = s.errcode := rfl
@[simp] theorem State.popCommand_errcmd (s : State) : s.popCommand.errcmd = s.errcmd := rfl
@[simp] theorem State.popCommand_errinfo (s : State) : s.popCommand.errinfo = s.errinfo := rfl
@[simp] theorem State.popCommand_turns (s : State) : s.popCommand.turns = s.turns := rfl
@[simp] theorem State.popCommand_busData (s : State) : s.popCommand.busData = s.busData := rfl
@[simp] theorem State.popCommand_genRom (s : State) : s.popCommand.genRom = s.genRom := rfl

/-! ## State.pushDout -/

@[simp] theorem State.pushDout_wb (bs : List Byte) (s : State) : (s.pushDout bs).wb = s.wb := rfl
@[simp] theorem State.pushDout_kr (bs : List Byte) (s : State) : (s.pushDout bs).kr = s.kr := rfl
@[simp] theorem State.pushDout_kv (bs : List Byte) (s : State) : (s.pushDout bs).kv = s.kv := rfl
@[simp] theorem State.pushDout_fmtr (bs : List Byte) (s : State) : (s.pushDout bs).fmtr = s.fmtr := rfl
@[simp] theorem State.pushDout_fv (bs : List Byte) (s : State) : (s.pushDout bs).fv = s.fv := rfl
@[simp] theorem State.pushDout_cq (bs : List Byte) (s : State) : (s.pushDout bs).cq = s.cq := rfl
@[simp] theorem State.pushDout_din (bs : List Byte) (s : State) : (s.pushDout bs).din = s.din := rfl
@[simp] theorem State.pushDout_dout (bs : List Byte) (s : State) : (s.pushDout bs).dout = s.dout ++ bs := rfl
@[simp] theorem State.pushDout_fault (bs : List Byte) (s : State) : (s.pushDout bs).fault = s.fault := rfl
@[simp] theorem State.pushDout_errcode (bs : List Byte) (s : State) : (s.pushDout bs).errcode = s.errcode := rfl
@[simp] theorem State.pushDout_errcmd (bs : List Byte) (s : State) : (s.pushDout bs).errcmd = s.errcmd := rfl
@[simp] theorem State.pushDout_errinfo (bs : List Byte) (s : State) : (s.pushDout bs).errinfo = s.errinfo := rfl
@[simp] theorem State.pushDout_turns (bs : List Byte) (s : State) : (s.pushDout bs).turns = s.turns := rfl
@[simp] theorem State.pushDout_busData (bs : List Byte) (s : State) : (s.pushDout bs).busData = s.busData := rfl
@[simp] theorem State.pushDout_genRom (bs : List Byte) (s : State) : (s.pushDout bs).genRom = s.genRom := rfl

/-! ## State.dropDin -/

@[simp] theorem State.dropDin_wb (n : Nat) (s : State) : (s.dropDin n).wb = s.wb := rfl
@[simp] theorem State.dropDin_kr (n : Nat) (s : State) : (s.dropDin n).kr = s.kr := rfl
@[simp] theorem State.dropDin_kv (n : Nat) (s : State) : (s.dropDin n).kv = s.kv := rfl
@[simp] theorem State.dropDin_fmtr (n : Nat) (s : State) : (s.dropDin n).fmtr = s.fmtr := rfl
@[simp] theorem State.dropDin_fv (n : Nat) (s : State) : (s.dropDin n).fv = s.fv := rfl
@[simp] theorem State.dropDin_cq (n : Nat) (s : State) : (s.dropDin n).cq = s.cq := rfl
@[simp] theorem State.dropDin_din (n : Nat) (s : State) : (s.dropDin n).din = s.din.drop n := rfl
@[simp] theorem State.dropDin_dout (n : Nat) (s : State) : (s.dropDin n).dout = s.dout := rfl
@[simp] theorem State.dropDin_fault (n : Nat) (s : State) : (s.dropDin n).fault = s.fault := rfl
@[simp] theorem State.dropDin_errcode (n : Nat) (s : State) : (s.dropDin n).errcode = s.errcode := rfl
@[simp] theorem State.dropDin_errcmd (n : Nat) (s : State) : (s.dropDin n).errcmd = s.errcmd := rfl
@[simp] theorem State.dropDin_errinfo (n : Nat) (s : State) : (s.dropDin n).errinfo = s.errinfo := rfl
@[simp] theorem State.dropDin_turns (n : Nat) (s : State) : (s.dropDin n).turns = s.turns := rfl
@[simp] theorem State.dropDin_busData (n : Nat) (s : State) : (s.dropDin n).busData = s.busData := rfl
@[simp] theorem State.dropDin_genRom (n : Nat) (s : State) : (s.dropDin n).genRom = s.genRom := rfl

/-! ## raiseFault -/

@[simp] theorem raiseFault_wb (f : FaultReport) (w : Word) (s : State) : (raiseFault f w s).wb = s.wb := rfl
@[simp] theorem raiseFault_kr (f : FaultReport) (w : Word) (s : State) : (raiseFault f w s).kr = s.kr := rfl
@[simp] theorem raiseFault_kv (f : FaultReport) (w : Word) (s : State) : (raiseFault f w s).kv = s.kv := rfl
@[simp] theorem raiseFault_fmtr (f : FaultReport) (w : Word) (s : State) : (raiseFault f w s).fmtr = s.fmtr := rfl
@[simp] theorem raiseFault_fv (f : FaultReport) (w : Word) (s : State) : (raiseFault f w s).fv = s.fv := rfl
@[simp] theorem raiseFault_cq (f : FaultReport) (w : Word) (s : State) : (raiseFault f w s).cq = s.cq.tail := rfl
@[simp] theorem raiseFault_din (f : FaultReport) (w : Word) (s : State) : (raiseFault f w s).din = s.din := rfl
@[simp] theorem raiseFault_dout (f : FaultReport) (w : Word) (s : State) : (raiseFault f w s).dout = s.dout := rfl
@[simp] theorem raiseFault_fault (f : FaultReport) (w : Word) (s : State) : (raiseFault f w s).fault = true := rfl
@[simp] theorem raiseFault_errcode (f : FaultReport) (w : Word) (s : State) : (raiseFault f w s).errcode = f.code.toByte := rfl
@[simp] theorem raiseFault_errcmd (f : FaultReport) (w : Word) (s : State) : (raiseFault f w s).errcmd = w := rfl
@[simp] theorem raiseFault_errinfo (f : FaultReport) (w : Word) (s : State) : (raiseFault f w s).errinfo = f.info := rfl
@[simp] theorem raiseFault_turns (f : FaultReport) (w : Word) (s : State) : (raiseFault f w s).turns = s.turns := rfl
@[simp] theorem raiseFault_busData (f : FaultReport) (w : Word) (s : State) : (raiseFault f w s).busData = s.busData := rfl
@[simp] theorem raiseFault_genRom (f : FaultReport) (w : Word) (s : State) : (raiseFault f w s).genRom = s.genRom := rfl

/-! ## resetBlock -/

@[simp] theorem resetBlock_wb (s : State) : (resetBlock s).wb = Vector.replicate 123 .poison := rfl
@[simp] theorem resetBlock_kr (s : State) : (resetBlock s).kr = 0 := rfl
@[simp] theorem resetBlock_kv (s : State) : (resetBlock s).kv = false := rfl
@[simp] theorem resetBlock_fmtr (s : State) : (resetBlock s).fmtr = 0 := rfl
@[simp] theorem resetBlock_fv (s : State) : (resetBlock s).fv = false := rfl
@[simp] theorem resetBlock_cq (s : State) : (resetBlock s).cq = [] := rfl
@[simp] theorem resetBlock_din (s : State) : (resetBlock s).din = [] := rfl
@[simp] theorem resetBlock_dout (s : State) : (resetBlock s).dout = [] := rfl
@[simp] theorem resetBlock_fault (s : State) : (resetBlock s).fault = false := rfl
@[simp] theorem resetBlock_errcode (s : State) : (resetBlock s).errcode = 0 := rfl
@[simp] theorem resetBlock_errcmd (s : State) : (resetBlock s).errcmd = 0 := rfl
@[simp] theorem resetBlock_errinfo (s : State) : (resetBlock s).errinfo = 0 := rfl
@[simp] theorem resetBlock_turns (s : State) : (resetBlock s).turns = s.turns := rfl
@[simp] theorem resetBlock_busData (s : State) : (resetBlock s).busData = s.busData := rfl
@[simp] theorem resetBlock_genRom (s : State) : (resetBlock s).genRom = s.genRom := rfl

/-! ## placeCommand -/

@[simp] theorem placeCommand_wb (w : Word) (s : State) : (placeCommand w s).wb = s.wb := rfl
@[simp] theorem placeCommand_kr (w : Word) (s : State) : (placeCommand w s).kr = s.kr := rfl
@[simp] theorem placeCommand_kv (w : Word) (s : State) : (placeCommand w s).kv = s.kv := rfl
@[simp] theorem placeCommand_fmtr (w : Word) (s : State) : (placeCommand w s).fmtr = s.fmtr := rfl
@[simp] theorem placeCommand_fv (w : Word) (s : State) : (placeCommand w s).fv = s.fv := rfl
@[simp] theorem placeCommand_cq (w : Word) (s : State) : (placeCommand w s).cq = w :: s.cq.tail := rfl
@[simp] theorem placeCommand_din (w : Word) (s : State) : (placeCommand w s).din = s.din := rfl
@[simp] theorem placeCommand_dout (w : Word) (s : State) : (placeCommand w s).dout = s.dout := rfl
@[simp] theorem placeCommand_fault (w : Word) (s : State) : (placeCommand w s).fault = false := rfl
@[simp] theorem placeCommand_errcode (w : Word) (s : State) : (placeCommand w s).errcode = 0 := rfl
@[simp] theorem placeCommand_errcmd (w : Word) (s : State) : (placeCommand w s).errcmd = 0 := rfl
@[simp] theorem placeCommand_errinfo (w : Word) (s : State) : (placeCommand w s).errinfo = 0 := rfl
@[simp] theorem placeCommand_turns (w : Word) (s : State) : (placeCommand w s).turns = .sequencer :: s.turns := rfl
@[simp] theorem placeCommand_busData (w : Word) (s : State) : (placeCommand w s).busData = s.busData := rfl
@[simp] theorem placeCommand_genRom (w : Word) (s : State) : (placeCommand w s).genRom = s.genRom := rfl

/-! ## rsblkEffect -/

@[simp] theorem rsblkEffect_wb (d k : Nat) (s : State) : (rsblkEffect d k s).wb = blockWb s.genRom k (s.din.take d) := rfl
@[simp] theorem rsblkEffect_kr (d k : Nat) (s : State) : (rsblkEffect d k s).kr = BitVec.ofNat 8 k := rfl
@[simp] theorem rsblkEffect_kv (d k : Nat) (s : State) : (rsblkEffect d k s).kv = true := rfl
@[simp] theorem rsblkEffect_fmtr (d k : Nat) (s : State) : (rsblkEffect d k s).fmtr = s.fmtr := rfl
@[simp] theorem rsblkEffect_fv (d k : Nat) (s : State) : (rsblkEffect d k s).fv = s.fv := rfl
@[simp] theorem rsblkEffect_cq (d k : Nat) (s : State) : (rsblkEffect d k s).cq = s.cq := rfl
@[simp] theorem rsblkEffect_din (d k : Nat) (s : State) : (rsblkEffect d k s).din = s.din.drop d := rfl
@[simp] theorem rsblkEffect_dout (d k : Nat) (s : State) : (rsblkEffect d k s).dout = s.dout ++ wbBytes k (blockWb s.genRom k (s.din.take d)) := rfl
@[simp] theorem rsblkEffect_fault (d k : Nat) (s : State) : (rsblkEffect d k s).fault = s.fault := rfl
@[simp] theorem rsblkEffect_errcode (d k : Nat) (s : State) : (rsblkEffect d k s).errcode = s.errcode := rfl
@[simp] theorem rsblkEffect_errcmd (d k : Nat) (s : State) : (rsblkEffect d k s).errcmd = s.errcmd := rfl
@[simp] theorem rsblkEffect_errinfo (d k : Nat) (s : State) : (rsblkEffect d k s).errinfo = s.errinfo := rfl
@[simp] theorem rsblkEffect_turns (d k : Nat) (s : State) : (rsblkEffect d k s).turns = s.turns := rfl
@[simp] theorem rsblkEffect_busData (d k : Nat) (s : State) : (rsblkEffect d k s).busData = s.busData := rfl
@[simp] theorem rsblkEffect_genRom (d k : Nat) (s : State) : (rsblkEffect d k s).genRom = s.genRom := rfl

/-! ## nextTurn -/

@[simp] theorem nextTurn_nil (s : State) (h : s.turns = []) : nextTurn s = (.sequencer, s) := by
  simp [nextTurn, h]

theorem nextTurn_cons (s : State) (t : Turn) (rest : List Turn) (h : s.turns = t :: rest) :
    nextTurn s = (t, { s with turns := rest }) := by
  simp [nextTurn, h]

@[simp] theorem nextTurn_snd_wb (s : State) : (nextTurn s).2.wb = s.wb := by
  unfold nextTurn; split <;> rfl
@[simp] theorem nextTurn_snd_kr (s : State) : (nextTurn s).2.kr = s.kr := by
  unfold nextTurn; split <;> rfl
@[simp] theorem nextTurn_snd_kv (s : State) : (nextTurn s).2.kv = s.kv := by
  unfold nextTurn; split <;> rfl
@[simp] theorem nextTurn_snd_fmtr (s : State) : (nextTurn s).2.fmtr = s.fmtr := by
  unfold nextTurn; split <;> rfl
@[simp] theorem nextTurn_snd_fv (s : State) : (nextTurn s).2.fv = s.fv := by
  unfold nextTurn; split <;> rfl
@[simp] theorem nextTurn_snd_cq (s : State) : (nextTurn s).2.cq = s.cq := by
  unfold nextTurn; split <;> rfl
@[simp] theorem nextTurn_snd_din (s : State) : (nextTurn s).2.din = s.din := by
  unfold nextTurn; split <;> rfl
@[simp] theorem nextTurn_snd_dout (s : State) : (nextTurn s).2.dout = s.dout := by
  unfold nextTurn; split <;> rfl
@[simp] theorem nextTurn_snd_fault (s : State) : (nextTurn s).2.fault = s.fault := by
  unfold nextTurn; split <;> rfl
@[simp] theorem nextTurn_snd_errcode (s : State) : (nextTurn s).2.errcode = s.errcode := by
  unfold nextTurn; split <;> rfl
@[simp] theorem nextTurn_snd_errcmd (s : State) : (nextTurn s).2.errcmd = s.errcmd := by
  unfold nextTurn; split <;> rfl
@[simp] theorem nextTurn_snd_errinfo (s : State) : (nextTurn s).2.errinfo = s.errinfo := by
  unfold nextTurn; split <;> rfl
@[simp] theorem nextTurn_snd_turns (s : State) : (nextTurn s).2.turns = s.turns.tail := by
  unfold nextTurn; split <;> simp [*]
@[simp] theorem nextTurn_snd_busData (s : State) : (nextTurn s).2.busData = s.busData := by
  unfold nextTurn; split <;> rfl
@[simp] theorem nextTurn_snd_genRom (s : State) : (nextTurn s).2.genRom = s.genRom := by
  unfold nextTurn; split <;> rfl

end Sys2Proof.Machine
end

