-- ==== Sys2Proof/Laws/Wb.lean ====
section
/-! SUPPORT. What the operations over the working buffer and the tables do, cell by cell. -/

namespace Sys2Proof.Machine

theorem readWb_of_lt {wb : Wb} {i : Nat} (h : i < 123) : readWb wb i = wb[i] := by simp [readWb, h]

@[simp] theorem readWb_of_ge {wb : Wb} {i : Nat} (h : 123 ≤ i) : readWb wb i = .poison := by
  simp [readWb, Nat.not_lt.mpr h]

theorem readWb_ofFn (f : Nat → WbCell) (i : Nat) : readWb (Wb.ofFn f) i = if i < 123 then f i else .poison := by
  unfold readWb Wb.ofFn
  split <;> simp

/-- Two buffers with the same cells are equal. -/
theorem wb_ext {a b : Wb} (h : ∀ i, i < 123 → readWb a i = readWb b i) : a = b := by
  apply Vector.ext
  intro i hi
  simpa [readWb, hi] using h i hi

theorem readWb_writeWb (wb : Wb) (i j : Nat) (c : WbCell) :
    readWb (writeWb wb i c) j = if i = j ∧ j < 123 then c else readWb wb j := by
  unfold readWb writeWb
  by_cases hj : j < 123 <;> simp [hj, Vector.getElem_setIfInBounds]

@[simp] theorem readWb_replicate (c : WbCell) (i : Nat) :
    readWb (Vector.replicate 123 c) i = if i < 123 then c else .poison := by
  unfold readWb
  split <;> simp

@[simp] theorem readWb_zeroWb (i : Nat) : readWb zeroWb i = if i < 123 then .byte 0 else .poison := by
  simp [zeroWb]

theorem readWb_shiftWb (wb : Wb) (i : Nat) :
    readWb (shiftWb wb) i = if i = 122 then .byte 0 else readWb wb (i + 1) := by
  unfold shiftWb
  rw [readWb_ofFn]
  by_cases hi : i < 123
  · simp [hi]
  · rw [if_neg hi, if_neg (by omega), readWb_of_ge (by omega)]

theorem readWb_xorGenerator (rom : GenRom) (k e : Nat) (wb : Wb) (m : Nat) (hm : m < 123) :
    readWb (xorGenerator rom k e wb) m =
      match rom.gen k m with
      | some g => (readWb wb m).xor (.byte (alog (g + e)))
      | none => readWb wb m := by
  cases h : rom.gen k m <;> simp [xorGenerator, readWb_ofFn, hm, h]

theorem readWb_loadWb (data : List Byte) (i : Nat) (h : i < 123) : readWb (loadWb data) i = .byte (data.getD i 0) := by
  unfold loadWb
  rw [readWb_ofFn, if_pos h]

@[simp] theorem WbCell.xor_byte (a b : Byte) : WbCell.xor (.byte a) (.byte b) = .byte (a ^^^ b) := rfl

@[simp] theorem WbCell.xor_poison_left (c : WbCell) : WbCell.xor .poison c = .poison := by cases c <;> rfl

@[simp] theorem WbCell.xor_poison_right (c : WbCell) : WbCell.xor c .poison = .poison := by cases c <;> rfl

/-! ## The division step -/

theorem divStep_of_zero {rom : GenRom} {k : Nat} {wb : Wb} (h : readWb wb 0 = .byte 0) : divStep rom k wb = shiftWb wb := by
  simp [divStep, h, log]

theorem divStep_of_log {rom : GenRom} {k e : Nat} {wb : Wb} {lead : Byte} (h : readWb wb 0 = .byte lead) (he : log lead = some e) :
    divStep rom k wb = xorGenerator rom k e (shiftWb wb) := by
  simp [divStep, h, he]

/-! ## Buffers without a `⊥` -/

/-- Every cell holds a byte. -/
def Wb.Defined (wb : Wb) : Prop := ∀ i, i < 123 → ∃ b, readWb wb i = .byte b

theorem zeroWb_defined : Wb.Defined zeroWb := fun i hi => ⟨0, by simp [hi]⟩

theorem loadWb_defined (data : List Byte) : Wb.Defined (loadWb data) := fun i hi => ⟨_, readWb_loadWb data i hi⟩

theorem shiftWb_defined {wb : Wb} (h : wb.Defined) : (shiftWb wb).Defined := by
  intro i hi
  rw [readWb_shiftWb]
  split
  · exact ⟨0, rfl⟩
  · exact h (i + 1) (by omega)

theorem xorGenerator_defined {rom : GenRom} {k e : Nat} {wb : Wb} (h : wb.Defined) : (xorGenerator rom k e wb).Defined := by
  intro i hi
  obtain ⟨b, hb⟩ := h i hi
  rw [readWb_xorGenerator rom k e wb i hi, hb]
  cases rom.gen k i with
  | some g => exact ⟨_, rfl⟩
  | none => exact ⟨b, rfl⟩

/-- A division step leaves no `⊥` where there was none (R114). -/
theorem divStep_defined {rom : GenRom} {k : Nat} {wb : Wb} (h : wb.Defined) : (divStep rom k wb).Defined := by
  unfold divStep
  split
  · exact h
  · split
    · exact shiftWb_defined h
    · exact xorGenerator_defined (shiftWb_defined h)

theorem divSteps_defined {rom : GenRom} {k : Nat} (n : Nat) {wb : Wb} (h : wb.Defined) : ((divStep rom k)^[n] wb).Defined := by
  induction n generalizing wb with
  | zero => exact h
  | succ n ih => exact ih (divStep_defined h)

/-- RSBLK never meets a `⊥` (R130: "every cell is zeroed first"). -/
theorem blockWb_defined (rom : GenRom) (k : Nat) (data : List Byte) : (blockWb rom k data).Defined :=
  divSteps_defined data.length (loadWb_defined data)

/-! ## Tables -/

theorem alogRom_length : alogRom.length = 255 := by decide +kernel

theorem logRom_length : logRom.length = 255 := by decide +kernel

/-- The spec's K_SET (R8). -/
theorem defaultGenRom_kSet : defaultGenRom.kSet = [7, 10, 13, 15, 16, 17, 18, 20, 22, 24, 26, 28, 30] := by decide +kernel

/-- The default meets the constraint on the parameter (R8, R29). -/
theorem defaultGenRom_wf : defaultGenRom.wf = true := by decide +kernel

/-- What the constraint says of one row (R8, R29). -/
theorem GenRom.wf_row {rom : GenRom} (h : rom.wf = true) {r : Nat × List Nat} (hr : r ∈ rom) :
    1 ≤ r.1 ∧ r.1 ≤ 123 ∧ r.2.length = r.1 ∧ ∀ e ∈ r.2, e < 255 := by
  simp only [GenRom.wf, Bool.and_eq_true, List.all_eq_true, decide_eq_true_eq] at h
  obtain ⟨⟨⟨h1, h2⟩, h3⟩, h4⟩ := h.1 r hr
  exact ⟨h1, h2, h3, h4⟩

/-- `k ∈ K_SET` exactly when the table has a row for `k` (R8). -/
theorem GenRom.mem_kSet_iff {rom : GenRom} {k : Nat} : k ∈ rom.kSet ↔ ∃ r ∈ rom, r.1 = k := by simp [GenRom.kSet]

/-- The constraint on K_SET (R8). -/
theorem GenRom.kSet_bounds {rom : GenRom} (h : rom.wf = true) {k : Nat} (hk : k ∈ rom.kSet) : 1 ≤ k ∧ k ≤ 123 := by
  obtain ⟨r, hr, rfl⟩ := GenRom.mem_kSet_iff.mp hk
  exact ⟨(GenRom.wf_row h hr).1, (GenRom.wf_row h hr).2.1⟩

/-- The row of a `k ∈ K_SET` is a row of the table (R29). -/
theorem GenRom.row_mem {rom : GenRom} {k : Nat} (hk : k ∈ rom.kSet) : (k, rom.row k) ∈ rom := by
  obtain ⟨r, hr, hrk⟩ := GenRom.mem_kSet_iff.mp hk
  unfold GenRom.row
  cases hf : rom.find? (fun r => r.1 == k) with
  | none => exact absurd (by simpa using hrk) (List.find?_eq_none.mp hf r hr)
  | some q =>
    have hq : q.1 = k := by simpa using List.find?_some hf
    exact hq ▸ List.mem_of_find?_eq_some hf

/-- There is no row outside K_SET (R29). -/
theorem GenRom.row_eq_nil {rom : GenRom} {k : Nat} (hk : k ∉ rom.kSet) : rom.row k = [] := by
  have : rom.find? (fun r => r.1 == k) = none := by
    rw [List.find?_eq_none]
    intro r hr h
    exact hk (GenRom.mem_kSet_iff.mpr ⟨r, hr, by simpa using h⟩)
  simp [GenRom.row, this]

/-- Every row has as many entries as its index says (R29). -/
theorem GenRom.row_length {rom : GenRom} (h : rom.wf = true) {k : Nat} (hk : k ∈ rom.kSet) : (rom.row k).length = k :=
  (GenRom.wf_row h (GenRom.row_mem hk)).2.2.1

/-- The table has an entry `GEN[k][m]` exactly for `m < k`, when `k ∈ K_SET` (R29). -/
theorem GenRom.gen_eq_none_iff {rom : GenRom} (h : rom.wf = true) {k : Nat} (hk : k ∈ rom.kSet) (m : Nat) :
    rom.gen k m = none ↔ k ≤ m := by
  simp [GenRom.gen, GenRom.row_length h hk]

/-- LOG has an entry exactly for the bytes that are not 0 (R28). -/
theorem log_eq_none_iff (b : Byte) : log b = none ↔ b = 0 := by
  unfold log
  split
  · simp [*]
  · rename_i h
    simp only [List.getElem?_eq_none_iff, logRom_length, h, iff_false]
    have : b.toNat < 256 := b.isLt
    omega

@[simp] theorem log_zero : log 0 = none := by simp [log]

/-- ALOG reads its exponent mod 255 (R112). -/
theorem alog_mod (e : Nat) : alog (e % 255) = alog e := by simp [alog]

/-! ## Bytes sent out -/

/-- Without a `⊥` below `k`, exactly the bytes of `WB[0..k−1]` go out. -/
theorem wbBytes_eq_map {k : Nat} {wb : Wb} {f : Nat → Byte} (h : ∀ m, m < k → readWb wb m = .byte (f m)) :
    wbBytes k wb = (List.range k).map f := by
  unfold wbBytes
  rw [← List.filterMap_eq_map]
  apply List.filterMap_congr
  intro m hm
  simp [h m (List.mem_range.mp hm), WbCell.byte?]

theorem lowestPoison_eq_none_iff (k : Nat) (wb : Wb) : lowestPoison k wb = none ↔ ∀ m, m < k → readWb wb m ≠ .poison := by
  simp [lowestPoison]

theorem lowestPoison_eq_some_iff (k m : Nat) (wb : Wb) :
    lowestPoison k wb = some m ↔ m < k ∧ readWb wb m = .poison ∧ ∀ j, j < m → readWb wb j ≠ .poison := by
  unfold lowestPoison
  rw [List.find?_range_eq_some]
  simp
  tauto

end Sys2Proof.Machine
end

