-- ==== Sys2Proof/Laws/Command.lean ====
section
/-! SUPPORT. What a command can do: the three ends of `runCommand`, and every arm of `exec` as one `runCommand`. -/

namespace Sys2Proof.Machine

theorem runCommand_fault {i : Instr} {effect : State → State} {s : State} {f : FaultReport} (h : firstFault i s = some f) :
    runCommand i effect s = .next (raiseFault f (headWord i s) s) := by
  simp [runCommand, h]

theorem runCommand_held {i : Instr} {effect : State → State} {s : State} (h : firstFault i s = none)
    (hh : holdCondition i s = true) : runCommand i effect s = .next s := by
  simp [runCommand, h, hh]

theorem runCommand_completes {i : Instr} {effect : State → State} {s : State} (h : firstFault i s = none)
    (hh : holdCondition i s = false) : runCommand i effect s = .next (effect s.popCommand) := by
  simp [runCommand, h, hh]

/-- The effect of a command that completes, as a function of the state its word has left (R105 to R152). -/
def effectOf (i : Instr) (t : State) : State :=
  match i with
  | .nop => t
  | .clr => { t with wb := zeroWb }
  | .ldb idx val => { t with wb := writeWb t.wb idx (.byte (BitVec.ofNat 8 val)) }
  | .setk k => { t with kr := BitVec.ofNat 8 k, kv := true }
  | .step => { t with wb := divStep t.genRom t.kr.toNat t.wb }
  | .rdb idx => t.pushDout (readWb t.wb idx).byte?.toList
  | .emit => t.pushDout (wbBytes t.kr.toNat t.wb)
  | .rsblk d k => rsblkEffect d k t
  | .fmt level mask => { t with fmtr := formatWord level mask, fv := true }

theorem exec_eq_runCommand (i : Instr) (s : State) : exec i s = runCommand i (effectOf i) s := by
  cases i <;> rfl

/-- Everything `exec` can do: it always answers a next state, which is fault entry, the same state (held), or the effect. -/
theorem exec_cases (i : Instr) (s : State) :
    (∃ f, firstFault i s = some f ∧ exec i s = .next (raiseFault f (headWord i s) s)) ∨
    (firstFault i s = none ∧ holdCondition i s = true ∧ exec i s = .next s) ∨
    (firstFault i s = none ∧ holdCondition i s = false ∧ exec i s = .next (effectOf i s.popCommand)) := by
  rw [exec_eq_runCommand]
  cases h : firstFault i s with
  | some f => exact .inl ⟨f, rfl, runCommand_fault h⟩
  | none =>
    cases hh : holdCondition i s with
    | true => exact .inr (.inl ⟨rfl, rfl, runCommand_held h hh⟩)
    | false => exact .inr (.inr ⟨rfl, rfl, runCommand_completes h hh⟩)

/-- Every command answers a next state, from every state. -/
theorem exec_next (i : Instr) (s : State) : ∃ t, exec i s = .next t := by
  rcases exec_cases i s with ⟨f, -, h⟩ | ⟨-, -, h⟩ | ⟨-, -, h⟩ <;> exact ⟨_, h⟩

/-- The word that ERRCMD takes is the head of CQ. -/
theorem headWord_of_cons {i : Instr} {s : State} {w : Word} {rest : List Word} (h : s.cq = w :: rest) :
    headWord i s = w := by
  simp [headWord, h]

/-! ## The checks -/

theorem checkIndex_eq_none_iff (idx : Nat) : checkIndex idx = none ↔ idx < 123 := by
  unfold checkIndex; split <;> simp <;> omega

theorem checkD_eq_none_iff (d : Nat) : checkD d = none ↔ d ≤ 123 := by
  unfold checkD; split <;> simp <;> omega

theorem checkK_eq_none_iff (k : Nat) (s : State) : checkK k s = none ↔ k ∈ s.genRom.kSet := by
  unfold checkK; split <;> simp [*]

theorem checkKv_eq_none_iff (s : State) : checkKv s = none ↔ s.kv = true := by
  unfold checkKv; split <;> simp [*]

theorem checkCell_eq_none_iff (i : Nat) (s : State) : checkCell i s = none ↔ readWb s.wb i ≠ .poison := by
  unfold checkCell; split <;> simp [*]

theorem checkCells_eq_none_iff (k : Nat) (s : State) : checkCells k s = none ↔ ∀ m, m < k → readWb s.wb m ≠ .poison := by
  simp [checkCells, lowestPoison_eq_none_iff]

/-- A command changes no field of the host's, and not the parameter (R52). -/
theorem effectOf_host (i : Instr) (t : State) : (effectOf i t).turns = t.turns ∧ (effectOf i t).busData = t.busData ∧
    (effectOf i t).genRom = t.genRom := by
  cases i <;> exact ⟨rfl, rfl, rfl⟩

/-- No command but the head's leaving touches CQ, and none writes the fault state (R34, R74). -/
theorem effectOf_frame (i : Instr) (t : State) :
    (effectOf i t).cq = t.cq ∧ (effectOf i t).fault = t.fault ∧ (effectOf i t).errcode = t.errcode ∧
      (effectOf i t).errcmd = t.errcmd ∧ (effectOf i t).errinfo = t.errinfo := by
  cases i <;> exact ⟨rfl, rfl, rfl, rfl, rfl⟩

end Sys2Proof.Machine
end

