-- ==== Sys2Proof/Laws/Decode.lean ====
section
/-! SUPPORT. The fields of packed words, and masking of packed words. -/

namespace Sys2Proof

/-- Masking a word of five fields masks each field. -/
theorem packAB_and (op a b : Nat) (m₁ m₂ : BitVec 4) (m₃ m₄ m₅ : BitVec 8) :
    packAB op a b &&& (m₁ ++ m₂ ++ m₃ ++ m₄ ++ m₅ : BitVec 32) =
      ((BitVec.ofNat 4 op &&& m₁) ++ 0#4 ++ (BitVec.ofNat 8 a &&& m₃) ++ 0#8 ++ (BitVec.ofNat 8 b &&& m₅) : BitVec 32) := by
  refine (BitVec.and_append (w := 24) (v := 8)).trans ?_
  rw [BitVec.and_append (w := 16) (v := 8), BitVec.and_append (w := 8) (v := 8), BitVec.and_append (w := 4) (v := 4)]
  simp

/-- Masking a word of format F masks each field. -/
theorem packF_and (op level mask : Nat) (m₁ : BitVec 4) (m₂ : BitVec 23) (m₃ : BitVec 2) (m₄ : BitVec 3) :
    packF op level mask &&& (m₁ ++ m₂ ++ m₃ ++ m₄ : BitVec 32) =
      ((BitVec.ofNat 4 op &&& m₁) ++ 0#23 ++ (BitVec.ofNat 2 level &&& m₃) ++ (BitVec.ofNat 3 mask &&& m₄) : BitVec 32) := by
  refine (BitVec.and_append (w := 29) (v := 3)).trans ?_
  rw [BitVec.and_append (w := 27) (v := 2), BitVec.and_append (w := 4) (v := 23)]
  simp

/-- Field B of a packed word (R81). -/
theorem field_packAB_b (op a b : Nat) : field (packAB op a b) 0 8 = b % 256 := by
  unfold field packAB
  rw [BitVec.extractLsb'_append_eq_right]
  simp

/-- Field A of a packed word (R81). -/
theorem field_packAB_a (op a b : Nat) : field (packAB op a b) 16 8 = a % 256 := by
  unfold field packAB
  rw [BitVec.extractLsb'_append_eq_of_le (by decide), BitVec.extractLsb'_append_eq_of_le (by decide)]
  simp only [Nat.reduceSub]
  rw [BitVec.extractLsb'_append_eq_right]
  simp

/-- Field MK of a word of format F (R81). -/
theorem field_packF_mask (op level mask : Nat) : field (packF op level mask) 0 3 = mask % 8 := by
  unfold field packF
  rw [BitVec.extractLsb'_append_eq_right]
  simp

/-- Field LV of a word of format F (R81). -/
theorem field_packF_level (op level mask : Nat) : field (packF op level mask) 3 2 = level % 4 := by
  unfold field packF
  rw [BitVec.extractLsb'_append_eq_of_le (by decide)]
  simp only [Nat.reduceSub]
  rw [BitVec.extractLsb'_append_eq_right]
  simp

theorem find_map_cons {α β : Type} (p : α → Bool) (f : α → β) (a : α) (l : List α) :
    ((a :: l).find? p).map f = if p a = true then some (f a) else (l.find? p).map f := by
  simp only [List.find?_cons]
  cases p a <;> rfl

/-- The decoder as the chain of its row tests (R84). -/
theorem decode_chain (w : Word) :
    decode w =
      if w &&& 0xFFFFFFFF = 0x00000000 then some .nop
      else if w &&& 0xFFFFFFFF = 0x10000000 then some .clr
      else if w &&& 0xFF00FF00 = 0x20000000 then some (.ldb (field w 16 8) (field w 0 8))
      else if w &&& 0xFFFFFF00 = 0x30000000 then some (.setk (field w 0 8))
      else if w &&& 0xFFFFFFFF = 0x40000000 then some .step
      else if w &&& 0xFF00FFFF = 0x50000000 then some (.rdb (field w 16 8))
      else if w &&& 0xFFFFFFFF = 0x60000000 then some .emit
      else if w &&& 0xFF00FF00 = 0x70000000 then some (.rsblk (field w 16 8) (field w 0 8))
      else if w &&& 0xFFFFFFE0 = 0x80000000 then some (.fmt (field w 3 2) (field w 0 3))
      else none := by
  simp only [decode, opcodeMap, find_map_cons, OpRow.admits, beq_iff_eq, List.find?_nil, Option.map_none]

/-- Every row fixes the opcode field, so a word that belongs to a row has the row's opcode (R82). -/
theorem opcode_of_row {w m p : Word} (hm : m.extractLsb' 28 4 = 0xF#4) (h : w &&& m = p) :
    w.extractLsb' 28 4 = p.extractLsb' 28 4 := by
  rw [← h, BitVec.extractLsb'_and, hm]
  exact BitVec.and_allOnes.symm

end Sys2Proof
end

