-- ==== Sys2Proof/Laws/HostBus.lean ====
section
/-! SUPPORT. What a host access reaches, and what a completed host step can do to the block. -/

namespace Sys2Proof.Machine

/-- An access inside the window is decoded by its offset (R36, R63). -/
theorem decodeAccess_offset (off width : Nat) (h : off < 0x100) :
    decodeAccess (Config.rsbchBase + off) width =
      if width ≠ 32 then .inr .accessWidth
      else if off % 4 ≠ 0 then .inr .misaligned
      else match hostRegAt off with
        | some r => .inl r
        | none => .inr .reservedOffset := by
  unfold decodeAccess
  rw [if_neg (by omega), if_neg (by omega)]
  cases hr : hostRegAt off <;> simp [hr]

/-- A 32-bit access at a register's offset reaches the register (R36). -/
theorem decodeAccess_of_reg {off : Nat} {r : HostReg} (h : hostRegAt off = some r) (ho : off < 0x100) (h4 : off % 4 = 0) :
    decodeAccess (Config.rsbchBase + off) 32 = .inl r := by
  rw [decodeAccess_offset off 32 ho]
  simp [h, h4]

/-- A count register shows a count that fits (R44 to R46). -/
theorem countWord_toNat {n : Nat} (h : n < 2 ^ 32) : (countWord n).toNat = n := by
  rw [countWord, if_pos h, BitVec.toNat_ofNat, Nat.mod_eq_of_lt h]

/-- An access that is not refused is a 32-bit access of a register at its offset in the window (R36, R48). -/
theorem decodeAccess_register {addr width : Nat} {r : HostReg} (h : decodeAccess addr width = .inl r) :
    width = 32 ∧ ∃ off, off < 0x100 ∧ off % 4 = 0 ∧ addr = Config.rsbchBase + off ∧ hostRegAt off = some r := by
  unfold decodeAccess at h
  split at h
  · cases h
  split at h
  · cases h
  split at h
  · cases h
  split at h
  · cases h
  split at h <;> cases h
  rename_i hlow hhigh hwidth halign _ hreg
  exact ⟨by simpa using hwidth, addr - Config.rsbchBase, by omega, by omega, by omega, hreg⟩

/-- Everything a completed read can do: it returns a value, and only a read of DOUT removes an entry (R65). -/
theorem readReg_cases {r : HostReg} {s t : State} (h : readReg r s = .next t) :
    (∃ v, t = { s with busData := some v }) ∨
    (∃ b rest, r = .dout ∧ s.dout = b :: rest ∧ t = { s with dout := rest, busData := some (b.setWidth 32) }) := by
  cases r <;> simp only [readReg, hostReturns] at h
  case dout =>
    split at h
    · cases h
    · rename_i b rest hd
      cases h
      exact .inr ⟨b, rest, rfl, hd, rfl⟩
  case fmtr =>
    split at h <;> cases h
    exact .inl ⟨_, rfl⟩
  all_goals first
    | (cases h; done)
    | (cases h; exact .inl ⟨_, rfl⟩)

/-- Everything a completed write can do: CMD and DIN gain an entry where there is room, CTRL resets or does nothing. -/
theorem writeReg_cases {r : HostReg} {w : Word} {s t : State} (h : writeReg r w s = .next t) :
    (r = .cmd ∧ s.cq.length < Config.cqDepth ∧ t = { s with cq := s.cq ++ [w] }) ∨
    (r = .din ∧ s.din.length < Config.dinDepth ∧ t = { s with din := s.din ++ [w.setWidth 8] }) ∨
    (r = .ctrl ∧ w.getLsbD 0 = true ∧ t = resetBlock s) ∨
    (r = .ctrl ∧ w.getLsbD 0 = false ∧ t = s) := by
  cases r <;> simp only [writeReg, writeCmd, writeDin, writeCtrl] at h
  case cmd =>
    split at h <;> cases h
    exact .inl ⟨rfl, ‹_›, rfl⟩
  case din =>
    split at h
    · cases h
    · split at h <;> cases h
      exact .inr (.inl ⟨rfl, ‹_›, rfl⟩)
  case ctrl =>
    split at h
    · cases h
    · split at h <;> cases h
      · exact .inr (.inr (.inl ⟨rfl, ‹_›, rfl⟩))
      · exact .inr (.inr (.inr ⟨rfl, Bool.eq_false_iff.mpr ‹_›, rfl⟩))
  all_goals cases h

/-- Everything a completed host step can do. -/
theorem hostStep_cases {a : HostAction} {s t : State} (h : hostStep a s = .next t) :
    (∃ r addr width, a = .read addr width ∧ decodeAccess addr width = .inl r ∧ readReg r s = .next t) ∨
    (∃ r addr width w, a = .write addr width w ∧ decodeAccess addr width = .inl r ∧ writeReg r w s = .next t) ∨
    (a = .rst ∧ t = resetBlock s) := by
  cases a with
  | read addr width =>
    simp only [hostStep] at h
    split at h
    · exact .inl ⟨_, addr, width, rfl, ‹_›, h⟩
    · cases h
  | write addr width w =>
    simp only [hostStep] at h
    split at h
    · exact .inr (.inl ⟨_, addr, width, w, rfl, ‹_›, h⟩)
    · cases h
  | rst => cases h; exact .inr (.inr ⟨rfl, rfl⟩)

end Sys2Proof.Machine
end

