-- ==== Sys2Proof/Laws/PerInstr.lean ====
section
/-! SUPPORT. Statements about every command as syntax, one lemma per constructor of Instr. -/

namespace Sys2Proof.Laws.RowMatch

/-- The `(mask, match)` pair of a command's row of the opcode map, as 30_encoding.md R84 lists it. -/
def row : Instr → Word × Word
  | .nop => (0xFFFFFFFF, 0x00000000)
  | .clr => (0xFFFFFFFF, 0x10000000)
  | .ldb _ _ => (0xFF00FF00, 0x20000000)
  | .setk _ => (0xFFFFFF00, 0x30000000)
  | .step => (0xFFFFFFFF, 0x40000000)
  | .rdb _ => (0xFF00FFFF, 0x50000000)
  | .emit => (0xFFFFFFFF, 0x60000000)
  | .rsblk _ _ => (0xFF00FF00, 0x70000000)
  | .fmt _ _ => (0xFFFFFFE0, 0x80000000)

/-- The encoded word belongs to the command's own row of the opcode map (R84, R86). -/
def Statement (i : Instr) : Prop := encode i &&& (row i).1 = (row i).2

theorem nop : Statement .nop := by unfold Statement row; decide

theorem clr : Statement .clr := by unfold Statement row; decide

theorem ldb (idx val : Nat) : Statement (.ldb idx val) := by
  refine (packAB_and 2 idx val 0xF 0xF 0 0xFF 0).trans ?_
  simp [row]

theorem setk (k : Nat) : Statement (.setk k) := by
  refine (packAB_and 3 0 k 0xF 0xF 0xFF 0xFF 0).trans ?_
  simp [row]

theorem step : Statement .step := by unfold Statement row; decide

theorem rdb (idx : Nat) : Statement (.rdb idx) := by
  refine (packAB_and 5 idx 0 0xF 0xF 0 0xFF 0xFF).trans ?_
  simp [row]

theorem emit : Statement .emit := by unfold Statement row; decide

theorem rsblk (d k : Nat) : Statement (.rsblk d k) := by
  refine (packAB_and 7 d k 0xF 0xF 0 0xFF 0).trans ?_
  simp [row]

theorem fmt (level mask : Nat) : Statement (.fmt level mask) := by
  refine (packF_and 8 level mask 0xF 0x7FFFFF 0 0).trans ?_
  simp [row]

end Sys2Proof.Laws.RowMatch
end

