-- ==== Sys2Proof/Laws/Step.lean ====
section
/-! SUPPORT. Everything one step can do. -/

namespace Sys2Proof.Machine

/-- What the sequencer finds when it looks for a command (R100). -/
theorem fetchCommand_eq_some_iff (s : State) (w : Word) :
    fetchCommand s = some w ↔ s.fault = false ∧ ∃ rest, s.cq = w :: rest := by
  unfold fetchCommand
  cases s.fault <;> cases s.cq <;> simp

theorem fetchCommand_eq_none_iff (s : State) : fetchCommand s = none ↔ s.fault = true ∨ s.cq = [] := by
  unfold fetchCommand
  cases s.fault <;> cases s.cq <;> simp

/-- Everything the sequencer's turn can do: nothing, an ILLEGAL_CMD fault, or the head command. It always answers a next state. -/
theorem sequencerStep_cases (s : State) :
    ((s.fault = true ∨ s.cq = []) ∧ sequencerStep s = .next s) ∨
    (∃ w rest, s.fault = false ∧ s.cq = w :: rest ∧ decode w = none ∧ sequencerStep s = .next (illegalCommand w s)) ∨
    (∃ w rest i, s.fault = false ∧ s.cq = w :: rest ∧ decode w = some i ∧ sequencerStep s = exec i s) := by
  unfold sequencerStep
  cases hf : fetchCommand s with
  | none => exact .inl ⟨(fetchCommand_eq_none_iff s).mp hf, rfl⟩
  | some w =>
    obtain ⟨h0, rest, hc⟩ := (fetchCommand_eq_some_iff s w).mp hf
    cases hd : decode w with
    | none => exact .inr (.inl ⟨w, rest, h0, hc, hd, by simp [hd]⟩)
    | some i => exact .inr (.inr ⟨w, rest, i, h0, hc, hd, by simp [hd]⟩)

/-- With no turn given, the step is the sequencer's. -/
theorem step_of_nil {s : State} (h : s.turns = []) : step s = sequencerStep s := by simp [step, h]

/-- A turn of the sequencer. -/
theorem step_of_sequencer {s : State} {ts : List Turn} (h : s.turns = .sequencer :: ts) :
    step s = sequencerStep { s with turns := ts } := by
  simp [step, nextTurn_cons s _ _ h]

/-- A turn of the host. -/
theorem step_of_host {s : State} {a : HostAction} {ts : List Turn} (h : s.turns = .host a :: ts) :
    step s = hostStep a { s with turns := ts } := by
  simp [step, nextTurn_cons s _ _ h]

/-- The sequencer's turn with a command at the head of CQ. -/
theorem sequencerStep_of_decode {s : State} {w : Word} {rest : List Word} {i : Instr} (hf : s.fault = false)
    (hc : s.cq = w :: rest) (hd : decode w = some i) : sequencerStep s = exec i s := by
  simp [sequencerStep, fetchCommand, hf, hc, hd]

/-- One step is the sequencer's turn or a host step, from the state with that turn taken. -/
theorem step_cases (s : State) :
    ((nextTurn s).1 = .sequencer ∧ step s = sequencerStep (nextTurn s).2) ∨
    (∃ a, (nextTurn s).1 = .host a ∧ step s = hostStep a (nextTurn s).2) := by
  unfold step
  cases h : nextTurn s with
  | mk turn t =>
    cases turn with
    | sequencer => exact .inl ⟨rfl, rfl⟩
    | host a => exact .inr ⟨a, rfl, rfl⟩

end Sys2Proof.Machine
end

