-- ==== Sys2Proof/Machine/Assembler.lean ====
section
/-! DEFINITION. The text form of assembler programs (30_encoding.md R88, R89): one command or pseudo-instruction per line, a
mnemonic, then its operands separated by commas; `;` starts a comment; numbers are decimal or 0x hexadecimal. Decode.lean
expands and encodes the lines. Log entry 10. -/

namespace Sys2Proof.Machine

/-- The value of a hexadecimal digit, in either case. -/
def digitValue (c : Char) : Option Nat :=
  if '0' ≤ c ∧ c ≤ '9' then some (c.toNat - 48)
  else if 'A' ≤ c ∧ c ≤ 'F' then some (c.toNat - 55)
  else if 'a' ≤ c ∧ c ≤ 'f' then some (c.toNat - 87)
  else none

/-- Digits in a base, after the value `acc` of the digits before them. -/
def digitsFrom (base acc : Nat) : List Char → Option Nat
  | [] => some acc
  | c :: cs =>
    match digitValue c with
    | some v => if v < base then digitsFrom base (acc * base + v) cs else none
    | none => none

/-- A number: decimal, or hexadecimal after `0x` (R88). -/
def parseNumber : List Char → Option Nat
  | [] => none
  | '0' :: 'x' :: cs => if cs.isEmpty then none else digitsFrom 16 0 cs
  | cs => digitsFrom 10 0 cs

/-- The level operand of FMT: `L`, `M`, `Q` or `H`, or its index (R88). -/
def parseLevel : List Char → Option Nat
  | ['L'] => some EcLevel.L.index
  | ['M'] => some EcLevel.M.index
  | ['Q'] => some EcLevel.Q.index
  | ['H'] => some EcLevel.H.index
  | cs => parseNumber cs

/-- A space or a tab. -/
def isBlank (c : Char) : Bool := c == ' ' || c == '\t'

/-- The text without blanks at either end. -/
def trimBlanks (cs : List Char) : List Char := ((cs.dropWhile isBlank).reverse.dropWhile isBlank).reverse

/-- The parts of a text between the places of `c`. -/
def splitAtChar (c : Char) : List Char → List (List Char)
  | [] => [[]]
  | x :: xs =>
    match splitAtChar c xs with
    | [] => [[x]]
    | p :: ps => if x == c then [] :: p :: ps else (x :: p) :: ps

/-- The operands of a line, separated by commas; none when nothing stands after the mnemonic. -/
def splitOperands (cs : List Char) : List (List Char) :=
  if (trimBlanks cs).isEmpty then [] else (splitAtChar ',' cs).map trimBlanks

/-- A line with no operand, by its mnemonic (R88). -/
def noOperand : List (List Char × AsmLine) :=
  [(['N', 'O', 'P'], .command .nop), (['C', 'L', 'R'], .command .clr), (['S', 'T', 'E', 'P'], .command .step),
    (['E', 'M', 'I', 'T'], .command .emit), (['L', 'D', 'S', 'E', 'Q'], .ldseq [])]

/-- A line with one operand or more, by its mnemonic (R88, R89). -/
def withOperands (mnemonic first : List Char) (more : List (List Char)) : Option AsmLine :=
  if mnemonic = ['L', 'D', 'S', 'E', 'Q'] then do return .ldseq (← (first :: more).mapM parseNumber)
  else if mnemonic = ['R', 'S', 'P', 'R', 'I', 'M'] then do return .rsprim (← parseNumber first) (← more.mapM parseNumber)
  else
    match more with
    | [] =>
      if mnemonic = ['S', 'E', 'T', 'K'] then do return .command (.setk (← parseNumber first))
      else if mnemonic = ['R', 'D', 'B'] then do return .command (.rdb (← parseNumber first))
      else if mnemonic = ['S', 'T', 'E', 'P', 'N'] then do return .stepn (← parseNumber first)
      else none
    | [second] =>
      if mnemonic = ['L', 'D', 'B'] then do return .command (.ldb (← parseNumber first) (← parseNumber second))
      else if mnemonic = ['R', 'S', 'B', 'L', 'K'] then do
        return .command (.rsblk (← parseNumber first) (← parseNumber second))
      else if mnemonic = ['F', 'M', 'T'] then do return .command (.fmt (← parseLevel first) (← parseNumber second))
      else none
    | _ => none

/-- A mnemonic with its operands (R88, R89). -/
def parseCommand (mnemonic : List Char) : List (List Char) → Option AsmLine
  | [] => noOperand.lookup mnemonic
  | first :: more => withOperands mnemonic first more

/-- One line of text: nothing but blanks and a comment, a command or pseudo-instruction, or neither (`none`). -/
def parseLine (text : List Char) : Option (List AsmLine) :=
  let body := trimBlanks (text.takeWhile (fun c => c != ';'))
  if body.isEmpty then some []
  else (parseCommand (body.takeWhile (fun c => !isBlank c))
    (splitOperands (body.dropWhile (fun c => !isBlank c)))).map (fun l => [l])

/-- A program's text, line by line, to its words (R88). -/
def assembleText (text : List Char) : Option (List Word) := do
  let lines ← (splitAtChar '\n' text).mapM parseLine
  assemble lines.flatten

end Sys2Proof.Machine
end

