-- ==== Sys2Proof/Tests/Slice0.lean ====
section
/-! SUPPORT. The model's own tests, with results taken from the spec's vectors (95_test_vectors.md,
  named at each test), and
a witness for the hypotheses of every obligation that has some. -/

/- The tests are checked one after another: each evaluates in the kernel, and many at once would each take a thread. -/
set_option Elab.async false

namespace Sys2Proof.Tests

open Sys2Proof Sys2Proof.Machine Sys2Proof.Claims

/-! ## WellFormed refuses an operand that does not fit its field (R88) -/

theorem test_wellFormed_ldb_idx : (Instr.ldb 256 0).wellFormed = false := by decide
theorem test_wellFormed_ldb_val : (Instr.ldb 0 256).wellFormed = false := by decide
theorem test_wellFormed_setk : (Instr.setk 256).wellFormed = false := by decide
theorem test_wellFormed_rdb : (Instr.rdb 256).wellFormed = false := by decide
theorem test_wellFormed_rsblk_d : (Instr.rsblk 256 7).wellFormed = false := by decide
theorem test_wellFormed_rsblk_k : (Instr.rsblk 0 256).wellFormed = false := by decide
theorem test_wellFormed_fmt_level : (Instr.fmt 4 0).wellFormed = false := by decide
theorem test_wellFormed_fmt_mask : (Instr.fmt 0 8).wellFormed = false := by decide
theorem test_wellFormed_ldseq_length : (AsmLine.ldseq (List.replicate 124 0)).wellFormed = false := by decide +kernel
theorem test_wellFormed_ldseq_value : (AsmLine.ldseq [0, 256]).wellFormed = false := by decide
theorem test_wellFormed_rsprim_k : (AsmLine.rsprim 256 []).wellFormed = false := by decide
theorem test_wellFormed_rsprim_length : (AsmLine.rsprim 7 (List.replicate 124 0)).wellFormed = false := by decide +kernel
theorem test_wellFormed_rsprim_value : (AsmLine.rsprim 7 [256]).wellFormed = false := by decide
theorem test_wellFormed_out_of_range_operand : (Instr.ldb 200 0).wellFormed = true := by decide

/-! ## Decoding, one word or more per constructor, written out from R82 (V10) -/

theorem test_decode_nop : decode 0b0000_0000_00000000_00000000_00000000 = some .nop := by decide
theorem test_decode_clr : decode 0b0001_0000_00000000_00000000_00000000 = some .clr := by decide
theorem test_decode_ldb : decode 0b0010_0000_01111010_00000000_11111111 = some (.ldb 122 255) := by decide
theorem test_decode_setk : decode 0b0011_0000_00000000_00000000_00011110 = some (.setk 30) := by decide
theorem test_decode_step : decode 0b0100_0000_00000000_00000000_00000000 = some .step := by decide
theorem test_decode_rdb : decode 0b0101_0000_11001000_00000000_00000000 = some (.rdb 200) := by decide
theorem test_decode_emit : decode 0b0110_0000_00000000_00000000_00000000 = some .emit := by decide
theorem test_decode_rsblk : decode 0b0111_0000_00001001_00000000_00010001 = some (.rsblk 9 17) := by decide
theorem test_decode_fmt : decode 0b1000_0000_00000000_00000000_000_10_110 = some (.fmt 2 6) := by decide
theorem test_decode_illegal :
    [0x00000001, 0x01000000, 0x10000001, 0x20000100, 0x30010007, 0x50000001, 0x80000020, 0x90000000, 0xF0000000,
      0xFFFFFFFF].map decode = List.replicate 10 none := by decide
theorem test_decodeTableWord : decodeTableWord 32 0x8000000D = some (.fmt 1 5) := by decide
theorem test_assemble_rsprim :
    assemble [.rsprim 7 [1, 2]] =
      some [0x10000000, 0x20000001, 0x20010002, 0x30000007, 0x40000000, 0x40000000, 0x60000000] := by decide

/-- `LDB 8, 236 ; x`, the first example of R90, a blank line, and `FMT H,7`. -/
theorem test_assembleText :
    assembleText ['L', 'D', 'B', ' ', '8', ',', ' ', '0', 'x', 'E', 'C', ' ', ';', ' ', 'x', '\n', '\n',
      'F', 'M', 'T', ' ', 'H', ',', '7'] = some [0x200800EC, 0x8000001F] := by decide +kernel

/-- R88: an operand that does not fit its field is refused. -/
theorem test_assembleText_refuses : assembleText ['S', 'E', 'T', 'K', ' ', '2', '5', '6'] = none := by decide +kernel

/-! ## Commands -/

/-- The state a step leads to. -/
def after (o : Host.Outcome State Fault Refusal) : State :=
  match o with
  | .next t => t
  | .fault _ => .reset
  | .refused _ => .reset

/-- The reset state with a word in CQ. -/
def holding (w : Word) : State := { State.reset with cq := [w] }

/-- FAULT, ERRCODE, ERRCMD, ERRINFO, STATUS. -/
def report (s : State) : Bool × Byte × Word × Byte × Word := (s.fault, s.errcode, s.errcmd, s.errinfo, statusWord s)

/-- V11. -/
theorem test_nop : (after (step (holding 0x00000000))).cq = [] ∧ statusWord (after (step (holding 0))) = 0x00000010 := by
  decide +kernel

/-- V17. -/
theorem test_clr : (after (step (holding 0x10000000))).wb = zeroWb := by decide +kernel

/-- V17. -/
theorem test_ldb : readWb (after (step (holding 0x200800EC))).wb 8 = .byte 236 ∧
    readWb (after (step (holding 0x200800EC))).wb 9 = .poison := by decide +kernel

/-- V30 row 5. -/
theorem test_ldb_badIndex : report (after (step (holding 0x207B0000))) = (true, 0x02, 0x207B0000, 123, 0x00000211) := by
  decide +kernel

/-- V17. -/
theorem test_setk : statusWord (after (step (holding 0x30000011))) = 0x00110012 := by decide +kernel

/-- V30 row 8. -/
theorem test_setk_badK : report (after (step (holding 0x3000001F))) = (true, 0x03, 0x3000001F, 31, 0x00000311) := by
  decide +kernel

/-- A buffer of zeros but for `v` in cell 0, with KR = 7. -/
def leading (v : Byte) : State :=
  { holding 0x40000000 with wb := writeWb zeroWb 0 (.byte v), kr := 7, kv := true }

/-- V13 row 2. -/
theorem test_step : wbBytes 8 (after (step (leading 2))).wb = [254, 244, 41, 85, 22, 136, 234, 0] := by decide +kernel

/-- V13 row 5: `⊥` shifts and stays `⊥` through the XOR, and the tail becomes 0. -/
theorem test_step_poison :
    lowestPoison 123 (after (step { leading 5 with wb := writeWb State.reset.wb 0 (.byte 5) })).wb = some 0 ∧
    (after (step { leading 5 with wb := writeWb State.reset.wb 0 (.byte 5) })).wb.toList.drop 121 = [.poison,
      .byte 0] := by
  decide +kernel

/-- V12, the cell of LDB 16, 21. -/
theorem test_rdb : (after (step { holding 0x50100000 with wb := writeWb State.reset.wb 16 (.byte 21) })).dout = [21] := by
  decide +kernel

/-- V30 row 6: BAD_INDEX before UNDEF_READ. -/
theorem test_rdb_badIndex : report (after (step (holding 0x50C80000))) = (true, 0x02, 0x50C80000, 200, 0x00000211) := by
  decide +kernel

/-- R125: EMIT of the bytes of V13 row 1. -/
theorem test_emit :
    (after (step { holding 0x60000000 with
      wb := loadWb [127, 122, 154, 164, 11, 68, 117, 9], kr := 7, kv := true, dout := [3] })).dout =
      [3, 127, 122, 154, 164, 11, 68, 117] := by decide +kernel

/-- V30 row 18: the lowest `⊥` below KR. -/
theorem test_emit_undefRead :
    report (after (step { holding 0x60000000 with
      wb := writeWb (writeWb (writeWb State.reset.wb 0 (.byte 1)) 1 (.byte 2)) 2 (.byte 3), kr := 7, kv := true })) =
      (true, 0x06, 0x60000000, 3, 0x00070613) := by decide +kernel

/-- V3, the source's own vector. -/
theorem test_rsblk :
    (after (step { holding 0x70090011 with din := [32, 65, 205, 69, 41, 220, 46, 128, 236] })).dout =
      [42, 159, 74, 221, 244, 169, 239, 150, 138, 70, 237, 85, 224, 96, 74, 219, 61] := by decide +kernel

/-- V30 row 11: field A before field B. -/
theorem test_rsblk_badD : report (after (step (holding 0x70C80000))) = (true, 0x04, 0x70C80000, 200, 0x00000411) := by
  decide +kernel

/-- V20, all 32 words. -/
theorem test_fmt :
    (List.range 32).map (fun n => formatWord (n / 8) (n % 8)) =
      [0x77C4, 0x72F3, 0x7DAA, 0x789D, 0x662F, 0x6318, 0x6C41, 0x6976, 0x5412, 0x5125, 0x5E7C, 0x5B4B, 0x45F9, 0x40CE,
        0x4F97, 0x4AA0, 0x355F, 0x3068, 0x3F31, 0x3A06, 0x24B4, 0x2183, 0x2EDA, 0x2BED, 0x1689, 0x13BE, 0x1CE7, 0x19D0,
        0x0762, 0x0255, 0x0D0C, 0x083B] := by decide +kernel

/-- P3: the later FMT overwrites FMTR. -/
theorem test_fmt_state :
    (after (step { holding 0x8000001F with fmtr := 0x40CE, fv := true })).fmtr = 0x083B ∧
    (after (step (holding 0x8000001F))).fv = true := by decide +kernel

/-- V20: the bits of 0x77C4, least significant first. -/
theorem test_formatBits :
    (formatBits 0x77C4).map Bool.toNat = [0, 0, 1, 0, 0, 0, 1, 1, 1, 1, 1, 0, 1, 1, 1] := by decide

/-- V30 row 1. -/
theorem test_illegal : report (after (step (holding 0x90000000))) = (true, 0x01, 0x90000000, 0, 0x00000111) := by
  decide +kernel

/-- V11 row 3: a NOP behind a fault stays in CQ. -/
theorem test_halted :
    (after (step { holding 0 with fault := true, errcode := 1 })).cq = [0] ∧
    statusWord { holding 0 with fault := true, errcode := 1 } = 0x00000101 := by decide +kernel

/-- V31 step 1: held for four more bytes. -/
theorem test_held :
    statusWord { holding 0x70090011 with din := [32, 65, 205, 69, 41] } = 0x00000008 ∧
    (after (step { holding 0x70090011 with din := [32, 65, 205, 69, 41] })).cq = [0x70090011] := by decide +kernel

/-- P5: FV and HELD, the RSBLK held with two of its three bytes. -/
theorem test_held_status :
    statusWord { State.reset with cq := [0x70030007, 0], din := [1, 2], fv := true, fmtr := 0x3F31 } = 0x0000000C := by
  decide +kernel

theorem test_withFetchWord : (after (step (State.reset.withFetchWord 32 0x8000000D))).fmtr = 0x40CE := by decide +kernel

/-! ## Another generator table (R8, R52) -/

/-- A table for `k = 2` alone: `(x − α^0)(x − α^1) = x^2 + 3x + 2`, with LOG[3] = 25 and LOG[2] = 1 (R28, R30). -/
def twoWords (w : Word) : State := { holding w with genRom := [(2, [25, 1])] }

theorem test_setk_other_table : (after (step (twoWords 0x30000002))).kr = 2 ∧
    report (after (step (twoWords 0x30000007))) = (true, 0x03, 0x30000007, 7, 0x00000311) := by decide +kernel

/-- R130 with that table: `1·x^2 mod x^2 + 3x + 2` is `3x + 2`. -/
theorem test_rsblk_other_table : (after (step { twoWords 0x70010002 with din := [1] })).dout = [3, 2] := by decide +kernel

theorem test_table_constraint :
    [[(0, [])], [(124, List.replicate 124 0)], [(2, [25])], [(1, [255])], [(2, [25, 1]), (1, [0])]].map GenRom.wf =
      List.replicate 5 false := by decide +kernel

/-! ## Host registers (V32) -/

/-- Why a step is refused, if it is. -/
def why (o : Host.Outcome State Fault Refusal) : Option Refusal :=
  match o with
  | .next _ => none
  | .fault _ => none
  | .refused r => some r

theorem test_read_status : (after (readReg .status State.reset)).busData = some 0x00000010 := by decide +kernel
theorem test_read_fmtr_unset : why (readReg .fmtr State.reset) = some .formatUnset := by decide +kernel
theorem test_read_fmtr :
    (after (readReg .fmtr { State.reset with fmtr := 0x77C4, fv := true })).busData = some 0x000077C4 := by decide +kernel
theorem test_read_dout_empty : why (readReg .dout State.reset) = some .outputQueueEmpty := by decide +kernel
theorem test_read_dout :
    (after (readReg .dout { State.reset with dout := [7, 21] })).busData = some 7 ∧
    (after (readReg .dout { State.reset with dout := [7, 21] })).dout = [21] := by decide +kernel
theorem test_write_din_reserved : why (writeReg .din 0x00000100 State.reset) = some .dinReservedBits := by decide +kernel
theorem test_write_ctrl_reserved : why (writeReg .ctrl 0x00000002 State.reset) = some .ctrlReservedBits :=
  by decide +kernel
theorem test_write_ctrl_reset :
    statusWord (after (writeReg .ctrl 1 { holding 0x10000000 with fault := true, errcode := 3, kv := true })) = 0x10 := by
  decide +kernel
theorem test_write_status : why (writeReg .status 0 State.reset) = some .writeOfReadOnly := by decide +kernel
theorem test_reserved_offsets : [0x2C, 0x30, 0xFC].map hostRegAt = [none, none, none] := by decide
theorem test_narrow_access : decodeAccess (Config.rsbchBase + 0x0C) 16 = .inr .accessWidth := by
  rw [decodeAccess_offset _ _ (by decide)]
  rfl
theorem test_misaligned_access : decodeAccess (Config.rsbchBase + 0x0E) 32 = .inr .misaligned := by
  rw [decodeAccess_offset _ _ (by decide)]
  rfl

/-! ## Witnesses: each hypothesis of each obligation can be met -/

theorem turn_nil (s : State) (h : s.turns = []) : SequencerTurn s s := .inl ⟨h, rfl⟩

theorem turn_sequencer (s : State) : SequencerTurn { s with turns := [.sequencer] } { s with turns := [] } :=
  .inr ⟨[], rfl, rfl⟩

theorem turn_host (a : HostAction) (s : State) : HostTurn a { s with turns := [.host a] } { s with turns := [] } :=
  ⟨[], rfl, rfl⟩

theorem witness_StepRunsDecodedCommand :
    SequencerTurn (holding 0x207A00FF) (holding 0x207A00FF) ∧ (holding 0x207A00FF).fault = false ∧
      (holding 0x207A00FF).cq = [0x207A00FF] ∧ decode 0x207A00FF = some (.ldb 122 255) :=
  ⟨turn_nil _ rfl, rfl, rfl, by decide⟩

theorem witness_StepRunsDecodedCommand_given_turn :
    SequencerTurn { holding 0x10000000 with turns := [.sequencer] } (holding 0x10000000) ∧
      decode 0x10000000 = some .clr :=
  ⟨turn_sequencer (holding 0x10000000), by decide⟩

theorem witness_NoSequencerStepWhileHaltedOrIdle :
    (SequencerTurn State.reset State.reset ∧ State.reset.cq = []) ∧
    (SequencerTurn { holding 0 with fault := true } { holding 0 with fault := true } ∧
      ({ holding 0 with fault := true } : State).fault = true) :=
  ⟨⟨turn_nil _ rfl, rfl⟩, turn_nil _ rfl, rfl⟩

theorem witness_IllegalWordsRaiseIllegalCmd :
    9 ≤ ((0x90000000 : Word).extractLsb' 28 4).toNat ∧
    (SequencerTurn (holding 0x90000000) (holding 0x90000000) ∧ (¬ ∃ r ∈ rows, (0x90000000 : Word) &&& r.1 = r.2)) ∧
    (SequencerTurn (holding 0x00000001) (holding 0x00000001) ∧ (¬ ∃ r ∈ rows, (0x00000001 : Word) &&& r.1 = r.2)) :=
  ⟨by decide, ⟨turn_nil _ rfl, by decide⟩, turn_nil _ rfl, by decide⟩

theorem witness_FirstCommandIsFirstWordWritten : decode 0x707B001E = some (.rsblk 123 30) := by decide

theorem witness_DecodingFollowsTheOpcodeMap :
    (0x00000000 : Word) &&& 0xFFFFFFFF = 0x00000000 ∧ (0x10000000 : Word) &&& 0xFFFFFFFF = 0x10000000 ∧
    (0x20FF00FF : Word) &&& 0xFF00FF00 = 0x20000000 ∧ (0x300000FF : Word) &&& 0xFFFFFF00 = 0x30000000 ∧
    (0x40000000 : Word) &&& 0xFFFFFFFF = 0x40000000 ∧ (0x50FF0000 : Word) &&& 0xFF00FFFF = 0x50000000 ∧
    (0x60000000 : Word) &&& 0xFFFFFFFF = 0x60000000 ∧ (0x70FF00FF : Word) &&& 0xFF00FF00 = 0x70000000 ∧
    (0x8000001F : Word) &&& 0xFFFFFFE0 = 0x80000000 ∧ ∀ r ∈ rows, (0x80000020 : Word) &&& r.1 ≠ r.2 := by
  simp [rows]

theorem witness_DecodeOfEncodeIsTheCommand :
    (Instr.ldb 255 255).wellFormed = true ∧ (Instr.rsblk 255 0).wellFormed = true ∧
      (Instr.fmt 3 7).wellFormed = true := by
  decide

theorem witness_EncodeOfDecodeIsTheWord : decode 0x8000001F = some (.fmt 3 7) := by decide

theorem witness_AssembledProgramsDecodeToTheirExpansion :
    [AsmLine.rsprim 30 (List.replicate 123 255), .stepn 2, .ldseq [], .command .emit].all AsmLine.wellFormed = true ∧
    [AsmLine.stepn 2, .ldseq [256]].all AsmLine.wellFormed = false := by decide +kernel

/-- A state for each fault of R171, at the edge of its range. -/
theorem witness_FirstFailingCheckIsReported :
    (SequencerTurn (holding 0xFFFFFFFF) (holding 0xFFFFFFFF) ∧ decode 0xFFFFFFFF = none) ∧
    (decode 0x207B0000 = some (.ldb 123 0) ∧ FaultsWith (.ldb 123 0) (holding 0x207B0000) 0x02 123) ∧
    (decode 0x3000001F = some (.setk 31) ∧ FaultsWith (.setk 31) (holding 0x3000001F) 0x03 31) ∧
    (decode 0x40000000 = some .step ∧ FaultsWith .step (holding 0x40000000) 0x05 0) ∧
    FaultsWith .step { holding 0x40000000 with kv := true } 0x06 0 ∧
    (decode 0x507B0000 = some (.rdb 123) ∧ FaultsWith (.rdb 123) (holding 0x507B0000) 0x02 123) ∧
    FaultsWith (.rdb 122) (holding 0x507A0000) 0x06 122 ∧
    FaultsWith .emit (holding 0x60000000) 0x05 0 ∧
    FaultsWith .emit { holding 0x60000000 with kv := true, kr := 7 } 0x06 0 ∧
    (decode 0x70C80000 = some (.rsblk 200 0) ∧ FaultsWith (.rsblk 200 0) (holding 0x70C80000) 0x04 200) ∧
    FaultsWith (.rsblk 123 8) (holding 0x707B0008) 0x03 8 := by
  refine ⟨⟨turn_nil _ rfl, by decide⟩, ⟨by decide, by decide, rfl, rfl⟩, ⟨by decide, by decide, rfl, rfl⟩,
    ⟨by decide, .inl ⟨rfl, rfl, rfl⟩⟩, .inr ⟨rfl, by decide +kernel, rfl, rfl⟩,
    ⟨by decide, .inl ⟨by decide, rfl, rfl⟩⟩, .inr ⟨by decide, by decide +kernel, rfl, rfl⟩, .inl ⟨rfl, rfl, rfl⟩,
    .inr ⟨rfl, rfl, 0, by decide, by decide +kernel, by omega, rfl⟩, ⟨by decide, .inl ⟨by decide, rfl, rfl⟩⟩,
    .inr ⟨by decide, by decide, rfl, rfl⟩⟩

/-- A table at the upper end of the range of `k`. -/
def oneRow : GenRom := [(123, List.replicate 123 254)]

theorem holding_kSet (w : Word) : (holding w).genRom.kSet = [7, 10, 13, 15, 16, 17, 18, 20, 22, 24, 26, 28, 30] :=
  defaultGenRom_kSet

/-- A state with DOUT full. -/
def full (w : Word) : State := { holding w with dout := List.replicate Config.doutDepth 0 }

theorem full_kSet (w : Word) : (full w).genRom.kSet = [7, 10, 13, 15, 16, 17, 18, 20, 22, 24, 26, 28, 30] :=
  defaultGenRom_kSet

theorem witness_CommandsAreHeldExactlyOnTheirCondition :
    (NoFault (.rdb 122) { full 0x507A0000 with wb := zeroWb } ∧
      HoldCondition (.rdb 122) { full 0x507A0000 with wb := zeroWb }) ∧
    (NoFault .emit { full 0x60000000 with wb := zeroWb, kr := 30, kv := true } ∧
      HoldCondition .emit { full 0x60000000 with wb := zeroWb, kr := 30, kv := true }) ∧
    (NoFault (.rsblk 123 30) (holding 0x707B001E) ∧ HoldCondition (.rsblk 123 30) (holding 0x707B001E) ∧
      SequencerTurn (holding 0x707B001E) (holding 0x707B001E) ∧ decode 0x707B001E = some (.rsblk 123 30)) ∧
    (NoFault (.rsblk 0 7) (full 0x70000007) ∧ HoldCondition (.rsblk 0 7) (full 0x70000007)) ∧
    (NoFault .nop (full 0) ∧ ¬ HoldCondition .nop (full 0)) ∧
    (∃ t, step (holding 0x707B001E) = .next t) := by
  refine ⟨⟨?_, ?_⟩, ⟨?_, ?_⟩, ⟨?_, ?_, turn_nil _ rfl, by decide⟩, ⟨?_, ?_⟩, ⟨?_, ?_⟩, _, rfl⟩
  · simp [NoFault, FaultsWith]
  · simp [HoldCondition, full]
  · simp +contextual [NoFault, FaultsWith]
    intro _ m hm h
    omega
  · simp [HoldCondition, full]
  · simp [NoFault, FaultsWith, holding_kSet]
  · simp [HoldCondition, holding, State.reset]
  · simp [NoFault, FaultsWith, full_kSet]
  · simp [HoldCondition, full]
  · simp [NoFault, FaultsWith]
  · simp [HoldCondition]

theorem witness_CommandsAreAllOrNothing : (holding 0x60000000).cq = [0x60000000] := rfl

/-- A reset state with a CLR waiting meets the invariant, and steps. -/
theorem witness_EveryStepKeepsTheInvariant : (holding 0x10000000).Inv ∧ ∃ t, step (holding 0x10000000) = .next t :=
  ⟨⟨defaultGenRom_wf, by simp [holding, Config.cqDepth], Nat.zero_le _, Nat.zero_le _, by simp [holding, State.reset],
    by simp [holding, State.reset], by simp [holding, State.reset], by simp [holding, State.reset]⟩, _, rfl⟩

theorem witness_EveryHoldCanBeLifted :
    (State.Inv { holding 0x707B001E with din := List.replicate 123 0 }) ∧
    NoFault (.rsblk 123 30) { holding 0x707B001E with din := List.replicate 123 0 } ∧
    (∀ d k, Instr.rsblk 123 30 = .rsblk d k → d ≤ (List.replicate 123 (0 : Byte)).length) := by
  refine ⟨⟨defaultGenRom_wf, by simp [holding, Config.cqDepth], by simp [Config.dinDepth], Nat.zero_le _,
    by simp [holding, State.reset],
    by simp [holding, State.reset], by simp [holding, State.reset], by simp [holding, State.reset]⟩, ?_, ?_⟩
  · simp [NoFault, FaultsWith, holding_kSet]
  · simp +contextual

/-- R105: the reserved bits of NOP, and a halted block. -/
theorem witness_NopLeavesTheQueueAndDoesNothing :
    ((0x08000000 : Word).extractLsb' 28 4).toNat = 0x0 ∧ (0x08000000 : Word) &&& 0xFFFFFFFF ≠ 0x00000000 ∧
    SequencerTurn { holding 0 with fault := true } { holding 0 with fault := true } :=
  ⟨by decide, by decide, turn_nil _ rfl⟩

theorem witness_ClrZeroesTheBuffer :
    ((0x10000001 : Word).extractLsb' 28 4).toNat = 0x1 ∧ (0x10000001 : Word) &&& 0xFFFFFFFF ≠ 0x10000000 := by decide

theorem witness_LdbWritesOneCell :
    ((0x20000100 : Word).extractLsb' 28 4).toNat = 0x2 ∧ (0x20000100 : Word) &&& 0xFF00FF00 ≠ 0x20000000 ∧
    122 < 123 ∧ 121 ≠ 122 ∧ (holding 0x207B0000).cq = [0x207B0000] ∧ 123 ≤ 123 := ⟨by decide, by decide, by decide,
      by decide, rfl, by decide⟩

theorem witness_SetkSelectsTheEcWordCount :
    ((0x30010007 : Word).extractLsb' 28 4).toNat = 0x3 ∧ (0x30010007 : Word) &&& 0xFFFFFF00 ≠ 0x30000000 ∧
    State.reset.genRom.wf = true ∧ 7 ∈ State.reset.genRom.kSet ∧ 30 ∈ State.reset.genRom.kSet ∧
    0 ∉ State.reset.genRom.kSet ∧ 31 ∉ State.reset.genRom.kSet ∧ 123 ∈ oneRow.kSet ∧ oneRow.wf = true ∧
      7 ∉ oneRow.kSet ∧ (holding 0x30000000).cq = [0x30000000] :=
  ⟨by decide, by decide, defaultGenRom_wf, by decide +kernel, by decide +kernel, by decide +kernel, by decide +kernel,
    by decide +kernel, by decide +kernel, by decide +kernel, rfl⟩

theorem witness_StepIsOneDivisionStep :
    ((0x48000000 : Word).extractLsb' 28 4).toNat = 0x4 ∧ (0x48000000 : Word) &&& 0xFFFFFFFF ≠ 0x40000000 ∧
    ((leading 0).kv = true ∧ readWb (leading 0).wb 0 ≠ .poison) ∧
    ((holding 0x40000000).cq = [0x40000000] ∧ (holding 0x40000000).kv = false) ∧
    readWb { holding 0x40000000 with kv := true, kr := 17 }.wb 0 = .poison :=
  ⟨by decide, by decide, ⟨rfl, by decide +kernel⟩, ⟨rfl, rfl⟩, by decide +kernel⟩

theorem witness_DivisionStepShiftsThenXorsTheGenerator :
    defaultGenRom.wf = true ∧ 7 ∈ defaultGenRom.kSet ∧ 30 ∈ defaultGenRom.kSet ∧ (oneRow.wf = true ∧
      123 ∈ oneRow.kSet) ∧ readWb (leading 0).wb 0 = .byte 0 ∧ readWb (leading 255).wb 0 = .byte 255 :=
  ⟨defaultGenRom_wf, by decide +kernel, by decide +kernel, by decide +kernel, by decide +kernel, by decide +kernel⟩

theorem witness_RdbSendsOneCell :
    ((0x50000001 : Word).extractLsb' 28 4).toNat = 0x5 ∧ (0x50000001 : Word) &&& 0xFF00FFFF ≠ 0x50000000 ∧
    (readWb { holding 0x507A0000 with wb := zeroWb }.wb 122 = .byte 0 ∧
      { holding 0x507A0000 with wb := zeroWb }.dout.length + 1 ≤ Config.doutDepth) ∧
    (readWb { full 0x507A0000 with wb := zeroWb }.wb 122 = .byte 0 ∧
      { full 0x507A0000 with wb := zeroWb }.dout.length + 1 > Config.doutDepth) ∧
    ((holding 0x507B0000).cq = [0x507B0000] ∧ 123 ≤ 123) ∧
    ((holding 0x507A0000).cq = [0x507A0000] ∧ 122 < 123 ∧ readWb (holding 0x507A0000).wb 122 = .poison) := by
  refine ⟨by decide, by decide, ⟨by simp, by simp [holding, State.reset, Config.doutDepth]⟩, ⟨by simp, by simp [full]⟩,
    ⟨rfl, by decide⟩, rfl, by decide, by decide +kernel⟩

/-- EMIT with KR = 30: room, no room, KV = 0, and a `⊥` in the last cell sent. -/
theorem witness_EmitSendsTheEcCodewords :
    ((0x60000001 : Word).extractLsb' 28 4).toNat = 0x6 ∧ (0x60000001 : Word) &&& 0xFFFFFFFF ≠ 0x60000000 ∧
    ((List.replicate 30 (0 : Byte)).length = (30 : Byte).toNat ∧
      (∀ m, m < (30 : Byte).toNat → readWb zeroWb m = .byte ((List.replicate 30 (0 : Byte)).getD m 0)) ∧
      (holding 0x60000000).dout.length + (30 : Byte).toNat ≤ Config.doutDepth) ∧
    ((∀ m, m < (30 : Byte).toNat → readWb zeroWb m ≠ .poison) ∧
      (full 0x60000000).dout.length + (30 : Byte).toNat > Config.doutDepth) ∧
    ((holding 0x60000000).cq = [0x60000000] ∧ (holding 0x60000000).kv = false) ∧
    (29 < (30 : Byte).toNat ∧ readWb (writeWb zeroWb 29 .poison) 29 = .poison ∧
      ∀ j, j < 29 → readWb (writeWb zeroWb 29 .poison) j ≠ .poison) := by
  refine ⟨by decide, by decide, ⟨by decide, by decide +kernel, ?_⟩, ⟨by decide +kernel, ?_⟩, ⟨rfl, rfl⟩, by decide,
    by decide +kernel, by decide +kernel⟩
  · simp [holding, State.reset, Config.doutDepth]
  · simp [full]

theorem witness_RsblkGeneratesOneBlock :
    ((0x70000100 : Word).extractLsb' 28 4).toNat = 0x7 ∧ (0x70000100 : Word) &&& 0xFF00FF00 ≠ 0x70000000 ∧
    (State.reset.genRom.wf = true ∧ 123 ≤ 123 ∧ 30 ∈ State.reset.genRom.kSet ∧
      123 ≤ (List.replicate 123 (255 : Byte)).length ∧ 0 + 30 ≤ Config.doutDepth) ∧
    (0 ≤ 123 ∧ 7 ∈ State.reset.genRom.kSet ∧ (full 0x70000007).dout.length + 7 > Config.doutDepth) ∧
    (holding 0x707B001E).din.length < 123 ∧
    ((holding 0x707C0007).cq = [0x707C0007] ∧ 123 < 124) ∧ ((holding 0x707B0008).cq = [0x707B0008] ∧
      8 ∉ State.reset.genRom.kSet) := by
  refine ⟨by decide, by decide, ⟨defaultGenRom_wf, by decide, by decide +kernel, by simp, by simp [Config.doutDepth]⟩,
    ⟨by decide, by decide +kernel, by simp [full]⟩, by decide, ⟨rfl, by decide⟩, rfl, by decide +kernel⟩

theorem witness_FmtComputesTheFormatWord :
    ((0x80000020 : Word).extractLsb' 28 4).toNat = 0x8 ∧ (0x80000020 : Word) &&& 0xFFFFFFE0 ≠ 0x80000000 ∧
    (3 < 4 ∧ 7 < 8) ∧ (0 < 4 ∧ 0 < 8) := by decide

theorem witness_FormatWordsAreBchCodewords :
    (∃ t, exec (.fmt 3 7) (holding 0x8000001F) = .next t) ∧ (∃ t, exec (.fmt 0 0) (holding 0x80000000) = .next t) ∧
    ((3, 7) : Nat × Nat) ≠ (0, 0) := ⟨⟨_, rfl⟩, ⟨_, rfl⟩, by decide⟩

theorem witness_tables : 0 < 254 ∧ 253 < 254 ∧ (1 : Byte) ≠ 0 ∧ (255 : Byte) ≠ 0 ∧
    7 ∈ State.reset.genRom.kSet ∧ 30 ∈ State.reset.genRom.kSet := by decide +kernel

/-- KR, FMTR, DIN, DOUT and WB do change. -/
theorem witness_OnlyTheNamedCommandsWriteEachState :
    (after (exec .clr (holding 0x10000000))).wb ≠ (holding 0x10000000).wb ∧
    (after (exec (.setk 7) (holding 0x30000007))).kv ≠ (holding 0x30000007).kv ∧
    (after (exec (.fmt 0 0) (holding 0x80000000))).fv ≠ (holding 0x80000000).fv ∧
    (after (exec (.rsblk 1 7) { holding 0x70010007 with din := [0] })).din ≠ [0] ∧
    (after (exec (.rsblk 0 7) (holding 0x70000007))).dout ≠ [] := by decide +kernel

theorem witness_OnlyResetLeavesTheFaultState :
    (∃ t, step { holding 0 with fault := true, errcode := 1 } = .next t) ∧
    (∃ t, step { holding 0 with fault := true, errcode := 1, turns := [.host .rst] } = .next t) := ⟨⟨_, rfl⟩, _, rfl⟩

theorem witness_FaultStateIsWrittenByEntryAndResetOnly :
    (∃ t, step (holding 0x90000000) = .next t) ∧ ∃ t, step { holding 0 with turns := [.host .rst] } = .next t :=
  ⟨⟨_, rfl⟩, _, rfl⟩

theorem witness_FormatAndReedSolomonAreIndependent :
    (∀ level mask, Instr.rsblk 1 7 ≠ .fmt level mask) ∧ ∃ t, exec (.rsblk 1 7) (holding 0x70010007) = .next t :=
  ⟨by simp, _, rfl⟩

theorem witness_QueuesAreFirstInFirstOut : ∃ t, step { holding 0x70010007 with din := [9] } = .next t := ⟨_, rfl⟩

theorem witness_CmdWriteQueuesTheWord :
    (HostTurn (.write Config.rsbchBase 32 0) { State.reset with turns := [.host (.write Config.rsbchBase 32 0)] }
      State.reset ∧ State.reset.cq.length < Config.cqDepth) ∧
    (HostTurn (.write Config.rsbchBase 32 0)
      { State.reset with cq := List.replicate Config.cqDepth 0, turns := [.host (.write Config.rsbchBase 32 0)] }
      { State.reset with cq := List.replicate Config.cqDepth 0 } ∧
      (List.replicate Config.cqDepth (0 : Word)).length = Config.cqDepth) ∧
    HostTurn (.read Config.rsbchBase 32) { State.reset with turns := [.host (.read Config.rsbchBase 32)] } State.reset :=
  ⟨⟨turn_host _ State.reset, by simp [State.reset, Config.cqDepth]⟩,
    ⟨turn_host _ { State.reset with cq := List.replicate Config.cqDepth 0 }, by simp⟩, turn_host _ State.reset⟩

theorem witness_DinWriteQueuesTheByte :
    ((0xFF : Word).toNat < 256 ∧ State.reset.din.length < Config.dinDepth) ∧ 256 ≤ (0x100 : Word).toNat ∧
    (List.replicate Config.dinDepth (0 : Byte)).length = Config.dinDepth ∧
    HostTurn (.write (Config.rsbchBase + 0x04) 32 0xFF)
      { State.reset with turns := [.host (.write (Config.rsbchBase + 0x04) 32 0xFF)] } State.reset ∧
    HostTurn (.read (Config.rsbchBase + 0x04) 32)
      { State.reset with turns := [.host (.read (Config.rsbchBase + 0x04) 32)] } State.reset :=
  ⟨⟨by decide, by simp [State.reset, Config.dinDepth]⟩, by decide, by simp, turn_host _ State.reset,
    turn_host _ State.reset⟩

/-- A turn of the host to read, and one to write, at any offset, from any state. -/
theorem witness_host_turns (off : Nat) (w : Word) (s : State) :
    (∃ u v, HostTurn (.read (Config.rsbchBase + off) 32) u v ∧ v.dout = s.dout ∧ v.fv = s.fv ∧ v.fault = s.fault) ∧
    (∃ u v, HostTurn (.write (Config.rsbchBase + off) 32 w) u v) :=
  ⟨⟨_, _, turn_host _ s, rfl, rfl, rfl⟩, _, _, turn_host _ s⟩

theorem witness_DoutReadTakesTheHeadByte :
    (HostTurn (.read (Config.rsbchBase + 0x08) 32)
      { State.reset with dout := [7, 21], turns := [.host (.read (Config.rsbchBase + 0x08) 32)] }
      { State.reset with dout := [7, 21] } ∧ ({ State.reset with dout := [7, 21] } : State).dout = [7, 21]) ∧
    (HostTurn (.read (Config.rsbchBase + 0x08) 32)
      { State.reset with turns := [.host (.read (Config.rsbchBase + 0x08) 32)] } State.reset ∧ State.reset.dout = []) :=
  ⟨⟨turn_host _ { State.reset with dout := [7, 21] }, rfl⟩, turn_host _ State.reset, rfl⟩

theorem witness_FmtrReadShowsTheFormatWord :
    (after (exec (.fmt 0 0) (holding 0x80000000))).fv = true ∧ State.reset.fv = false := by decide +kernel

theorem witness_ErrorAndCountRegistersRead :
    ((holding 0x10000000).Inv ∧ (holding 0x10000000).fault = false) ∧ (holding 0x10000000).cq.length < 2 ^ 32 ∧
    (holding 0x10000000).din.length < 2 ^ 32 ∧ (holding 0x10000000).dout.length < 2 ^ 32 ∧
    0x24 ∈ [0x14, 0x18, 0x1C, 0x20, 0x24] :=
  ⟨⟨witness_EveryStepKeepsTheInvariant.1, rfl⟩, by decide, by decide, by decide, by decide⟩

theorem witness_CtrlWriteOfOneResets : 2 ≤ (0x00000002 : Word).toNat ∧ 2 ≤ (0x80000001 : Word).toNat := by decide

theorem witness_MalformedAccessesAreRefused :
    (0x0C < 0x100 ∧ 16 ≠ 32) ∧ (0x0E < 0x100 ∧ 0x0E % 4 ≠ 0) ∧ (0x2C < 0x100 ∧ 0x2C ≤ 0x2C) ∧
    (0xFC < 0x100 ∧ 0x2C ≤ 0xFC) ∧
    HostTurn (.read (Config.rsbchBase + 0x0C) 16)
      { State.reset with turns := [.host (.read (Config.rsbchBase + 0x0C) 16)] } State.reset ∧
    HostTurn (.write (Config.rsbchBase + 0xFC) 32 0)
      { State.reset with turns := [.host (.write (Config.rsbchBase + 0xFC) 32 0)] } State.reset :=
  ⟨by decide, by decide, by decide, by decide, turn_host _ State.reset, turn_host _ State.reset⟩

theorem witness_BothResetCausesReset :
    HostTurn .rst { holding 0 with turns := [.host .rst] } (holding 0) ∧
    HostTurn (.write (Config.rsbchBase + 0x28) 32 1)
      { holding 0 with turns := [.host (.write (Config.rsbchBase + 0x28) 32 1)] } (holding 0) :=
  ⟨turn_host _ (holding 0), turn_host _ (holding 0)⟩

/-- The hypotheses of the Reed–Solomon laws, at the ends of the range of `d`. -/
theorem witness_BlockCommandEqualsItsPrimitives :
    ({ State.reset with din := List.replicate 123 5 ++ [6] } : State).fault = false ∧
    (List.replicate 123 (5 : Byte)).length = 123 ∧ State.reset.genRom.wf = true ∧ 30 ∈ State.reset.genRom.kSet ∧
      State.reset.dout.length + 30 ≤ Config.doutDepth ∧
    State.reset.din = [] ++ [] ∧ 7 ∈ State.reset.genRom.kSet :=
  ⟨rfl, by simp, defaultGenRom_wf, by decide +kernel, by simp [State.reset, Config.doutDepth], rfl, by decide +kernel⟩

theorem witness_CellsPastTheEcBytesAreZero :
    (123 ≤ ({ State.reset with din := List.replicate 123 5 } : State).din.length ∧
      ({ State.reset with din := List.replicate 123 5 } : State).dout.length + 30 ≤ Config.doutDepth) ∧
    State.reset.genRom.wf = true ∧ 30 ∈ State.reset.genRom.kSet ∧ (30 ≤ 30 ∧ 30 < 123) ∧ (30 ≤ 122 ∧ 122 < 123) ∧
      State.reset.fault = false ∧
    (List.replicate 123 (5 : Byte)).length = 123 :=
  ⟨⟨by simp, by simp [State.reset, Config.doutDepth]⟩, defaultGenRom_wf, by decide +kernel, by decide, by decide, rfl,
    by simp⟩

/-- A state from which `EcBytes` says something, for any data of at most 123 bytes. -/
theorem witness_EcBytes (rom : GenRom) (data : List Byte) (k : Nat) (h : k ≤ 123) :
    ∃ s : State, s.genRom = rom ∧ data.length ≤ s.din.length ∧ s.din.take data.length = data ∧
      s.dout.length + k ≤ Config.doutDepth :=
  ⟨{ State.reset with din := data, genRom := rom }, rfl, Nat.le_refl _, List.take_length, by
    simp [State.reset, Config.doutDepth]; omega⟩

theorem witness_EcBytesLaws :
    (defaultGenRom.wf = true ∧ RootProducts defaultGenRom ∧ 30 ∈ defaultGenRom.kSet) ∧
    (oneRow.wf = true ∧ 123 ∈ oneRow.kSet) ∧ (List.replicate 123 (1 : Byte)).length = 123 ∧
      ([] : List Byte).length = 0 ∧ 0 < 0 + 30 ∧ 29 < 30 :=
  ⟨⟨defaultGenRom_wf, by unfold RootProducts; decide +kernel, by decide +kernel⟩, by decide +kernel, by simp, rfl,
    by decide,
    by decide⟩

/-- The four blocks of V4: 46 data codewords, 22 EC words per block, and any two blocks of the largest size of R8. -/
theorem witness_SymbolEcOutputIsInBlockOrder :
    (∀ b ∈ symbolBlocks [⟨2, 11, 33⟩, ⟨2, 12, 34⟩], b.1 ≤ 123 ∧ b.2 ∈ defaultGenRom.kSet) ∧
    (List.replicate 46 (0 : Byte)).length = ((symbolBlocks [⟨2, 11, 33⟩, ⟨2, 12, 34⟩]).map Prod.fst).sum ∧
    ((symbolBlocks [⟨2, 11, 33⟩, ⟨2, 12, 34⟩]).map Prod.snd).sum ≤ Config.doutDepth := by
  refine ⟨by decide +kernel, by decide, ?_⟩
  have : ((symbolBlocks [⟨2, 11, 33⟩, ⟨2, 12, 34⟩]).map Prod.snd).sum = 88 := by decide
  simp only [this, Config.doutDepth]
  omega

/-- Tables at both ends of the range of `k`, a `k` in K_SET and one outside it. -/
theorem witness_KSetHasItsDefaultAndConstraint :
    (oneRow.wf = true ∧ 123 ∈ oneRow.kSet ∧ 122 ∉ oneRow.kSet) ∧
    (GenRom.wf [(1, [0])] = true ∧ 1 ∈ GenRom.kSet [(1, [0])]) ∧ GenRom.wf [] = true := by decide +kernel

theorem witness_NoStepChangesTheConfiguration :
    (∃ t, step (twoWords 0x30000002) = .next t) ∧ ∃ t, step { twoWords 0x30000002 with turns :=
      [.host .rst] } = .next t :=
  ⟨⟨_, rfl⟩, _, rfl⟩

end Sys2Proof.Tests
end

section
/-! PROOFS. The family 00_scope.md: multiplication in GF(256) through the tables (R16), and K_SET with its generator table (R8).

The tables give the field product because both sides are powers of `x`: ALOG[n] is `x^n` (`alog_eq_iterate`), and
multiplying by `x` commutes with `polyMul` in its first operand (`polyMul_timesX`), so `x^i · x^j` is `x^(i+j)`. -/

namespace Sys2Proof.Proofs

open Sys2Proof Sys2Proof.Machine Sys2Proof.Claims

/-! ## Sums in GF(256) -/

@[simp] theorem xorSum_zero (f : Nat → Byte) : xorSum 0 f = 0 := rfl

theorem xorSum_succ (n : Nat) (f : Nat → Byte) : xorSum (n + 1) f = xorSum n f ^^^ f n := by
  simp [xorSum, List.range_succ]

theorem xorSum_eq_zero {n : Nat} {f : Nat → Byte} (h : ∀ i, i < n → f i = 0) : xorSum n f = 0 := by
  induction n with
  | zero => rfl
  | succ n ih => simp [xorSum_succ, ih fun i hi => h i (by omega), h n (by omega)]

theorem xorSum_xor (n : Nat) (f g : Nat → Byte) : xorSum n (fun i => f i ^^^ g i) = xorSum n f ^^^ xorSum n g := by
  induction n with
  | zero => simp
  | succ n ih => simp only [xorSum_succ, ih]; ac_rfl

/-! ## Multiplication by `x` -/

theorem timesX_zero : timesX 0 = 0 := by decide

theorem timesX_xor (a b : Byte) : timesX (a ^^^ b) = timesX a ^^^ timesX b := by
  have hcarry : (if (a ^^^ b).getLsbD 7 then 0x1D else 0 : Byte) =
      (if a.getLsbD 7 then 0x1D else 0) ^^^ (if b.getLsbD 7 then 0x1D else 0) := by
    rw [BitVec.getLsbD_xor]
    cases a.getLsbD 7 <;> cases b.getLsbD 7 <;> rfl
  simp only [timesX, hcarry, BitVec.shiftLeft_xor_distrib]
  ac_rfl

theorem timesX_iterate_zero (n : Nat) : timesX^[n] 0 = 0 := Function.iterate_fixed timesX_zero n

theorem timesX_xorSum (n : Nat) (f : Nat → Byte) : timesX (xorSum n f) = xorSum n fun i => timesX (f i) := by
  induction n with
  | zero => exact timesX_zero
  | succ n ih => rw [xorSum_succ, xorSum_succ, timesX_xor, ih]

/-! ## The product of polynomials -/

theorem polyMul_zero_left (b : Byte) : polyMul 0 b = 0 := xorSum_eq_zero fun i _ => by simp

theorem polyMul_zero_right (a : Byte) : polyMul a 0 = 0 := xorSum_eq_zero fun i _ => by rw [timesX_iterate_zero, ite_self]

theorem polyMul_one_left (b : Byte) : polyMul 1 b = b := by
  simp [polyMul, xorSum_succ]

theorem polyMul_xor_left (a c b : Byte) : polyMul (a ^^^ c) b = polyMul a b ^^^ polyMul c b := by
  have hbit (i : Nat) : (if (a ^^^ c).getLsbD i then timesX^[i] b else 0) =
      (if a.getLsbD i then timesX^[i] b else 0) ^^^ (if c.getLsbD i then timesX^[i] b else 0) := by
    rw [BitVec.getLsbD_xor]
    cases a.getLsbD i <;> cases c.getLsbD i <;> simp
  simp only [polyMul, hbit, xorSum_xor]

/-- `x^8 = x^4 + x^3 + x^2 + 1` (R16): what `timesX` puts in for a carry is the product with `x^8`. -/
theorem polyMul_reduction (b : Byte) : polyMul 0x1D b = timesX^[8] b := by
  revert b
  decide +kernel

/-- Multiplying the first operand by `x` without reduction; the term of its carry is the product with `x^8`. -/
theorem polyMul_shiftLeft_xor_carry (a b : Byte) :
    polyMul (a <<< 1) b ^^^ (if a.getLsbD 7 then timesX^[8] b else 0) = timesX (polyMul a b) := by
  have hterm (i : Nat) : timesX (if a.getLsbD i then timesX^[i] b else 0) =
      if a.getLsbD i then timesX^[i + 1] b else 0 := by
    rw [apply_ite timesX, timesX_zero, Function.iterate_succ_apply']
  rw [polyMul, polyMul, timesX_xorSum]
  simp only [hterm]
  simp [xorSum_succ]

theorem polyMul_timesX (a b : Byte) : polyMul (timesX a) b = timesX (polyMul a b) := by
  have hcarry : polyMul (if a.getLsbD 7 then 0x1D else 0) b = if a.getLsbD 7 then timesX^[8] b else 0 := by
    split
    · exact polyMul_reduction b
    · exact polyMul_zero_left b
  rw [timesX, polyMul_xor_left, hcarry, polyMul_shiftLeft_xor_carry]

theorem polyMul_timesX_iterate (i : Nat) (a b : Byte) : polyMul (timesX^[i] a) b = timesX^[i] (polyMul a b) := by
  induction i with
  | zero => rfl
  | succ i ih => simp only [Function.iterate_succ_apply', polyMul_timesX, ih]

/-! ## ALOG and LOG -/

/-- R27's recurrence over the whole table, with the step from entry 254 back to entry 0. -/
theorem alog_succ_of_lt : ∀ i, i < 255 → alog (i + 1) = timesX (alog i) := by decide +kernel

theorem alog_succ (n : Nat) : alog (n + 1) = timesX (alog n) := by
  have h := alog_succ_of_lt (n % 255) (Nat.mod_lt n (by decide))
  rwa [alog_mod, ← alog_mod (n % 255 + 1), Nat.mod_add_mod, alog_mod] at h

/-- ALOG[n] is `x^n` (R27). -/
theorem alog_eq_iterate (n : Nat) : alog n = timesX^[n] 1 := by
  induction n with
  | zero => rfl
  | succ n ih => rw [alog_succ, ih, Function.iterate_succ_apply']

/-- LOG is a right inverse of ALOG (R28). -/
theorem alog_log {b : Byte} {i : Nat} (h : log b = some i) : alog i = b := by
  have hall : ∀ b : Byte, ∀ i ∈ log b, alog i = b := by decide +kernel
  exact hall b i h

/-- The product of two powers of `x`, free of the tables, is the power with the sum of the exponents. -/
theorem polyMul_alog (i j : Nat) : polyMul (alog i) (alog j) = alog (i + j) := by
  simp only [alog_eq_iterate, polyMul_timesX_iterate, polyMul_one_left, Function.iterate_add_apply]

theorem gfmul_zero_left (b : Byte) : gfmul 0 b = 0 := by rw [gfmul, log_zero]

theorem gfmul_zero_right (a : Byte) : gfmul a 0 = 0 := by
  rw [gfmul, log_zero]
  cases log a <;> rfl

/-- R111 for two bytes that have a logarithm. -/
theorem gfmul_of_log {a b : Byte} {i j : Nat} (ha : log a = some i) (hb : log b = some j) : gfmul a b = alog (i + j) := by
  simp [gfmul, ha, hb]

theorem gfmul_eq_polyMul (a b : Byte) : gfmul a b = polyMul a b := by
  cases ha : log a with
  | none => rw [(log_eq_none_iff a).mp ha, gfmul_zero_left, polyMul_zero_left]
  | some i =>
    cases hb : log b with
    | none => rw [(log_eq_none_iff b).mp hb, gfmul_zero_right, polyMul_zero_right]
    | some j => rw [gfmul_of_log ha hb, ← polyMul_alog, alog_log ha, alog_log hb]

/-- Settles O28: a byte that is not 0 is ALOG of its LOG, a power of `x`, and powers of `x` multiply by adding exponents. -/
theorem tableProductIsFieldProduct : Obligations.TableProductIsFieldProduct := gfmul_eq_polyMul

/-! ## K_SET and the generator table -/

/-- Every entry of a table that meets the constraint is an exponent of ALOG (R29). -/
theorem gen_lt_of_wf {rom : GenRom} (h : rom.wf = true) {k : Nat} (hk : k ∈ rom.kSet) {m g : Nat}
    (hg : rom.gen k m = some g) : g < 255 := by
  obtain ⟨-, -, -, hexp⟩ := GenRom.wf_row h (GenRom.row_mem hk)
  exact hexp g (List.mem_of_getElem? hg)

/-- A row of a table that meets the constraint holds exponents exactly at the places below `k` (R29). -/
theorem lt_iff_gen_eq_some {rom : GenRom} (h : rom.wf = true) {k : Nat} (hk : k ∈ rom.kSet) (m : Nat) :
    m < k ↔ ∃ g, g < 255 ∧ rom.gen k m = some g := by
  have hnone := GenRom.gen_eq_none_iff h hk m
  cases hg : rom.gen k m with
  | none =>
    have hle : k ≤ m := hnone.mp hg
    simp [hle]
  | some g =>
    have hlt : m < k := by simpa [hg] using hnone
    simp [hlt, gen_lt_of_wf h hk hg]

/-- There is no entry outside K_SET (R29). -/
theorem gen_eq_none_of_notMem {rom : GenRom} {k : Nat} (hk : k ∉ rom.kSet) (m : Nat) : rom.gen k m = none := by
  simp [GenRom.gen, GenRom.row_eq_nil hk]

/-- Settles O52: the default by its two laws, and an admitted table by what the constraint says of the row of a `k` in K_SET. -/
theorem kSetHasItsDefaultAndConstraint : Obligations.KSetHasItsDefaultAndConstraint := by
  refine ⟨defaultGenRom_kSet, defaultGenRom_wf, fun rom k hwf => ⟨fun hk => ?_, gen_eq_none_of_notMem⟩⟩
  obtain ⟨hpos, hle⟩ := GenRom.kSet_bounds hwf hk
  exact ⟨hpos, hle, lt_iff_gen_eq_some hwf hk⟩

end Sys2Proof.Proofs
end

section
/-! PROOFS. The family 10_state.md: the state, its tables, the host registers, reset and the invariant.

What one step can do is said once, as the relation `Move`, whose constructors are the rules of the spec; that the
invariant is kept, that the configuration stays and that only fault entry and reset write the fault state are case splits
over it. The invariant is kept move by move: a command that completes keeps it field by field. -/

namespace Sys2Proof.Proofs

open Sys2Proof Sys2Proof.Machine Sys2Proof.Claims

/-! ## Turns -/

theorem nextTurn_snd (s : State) : (nextTurn s).2 = { s with turns := s.turns.tail } := by
  unfold nextTurn
  split
  next h => rw [h, List.tail_nil, ← h]
  next h => rw [h, List.tail_cons]

theorem sequencerTurn_nextTurn {s : State} (h : (nextTurn s).1 = .sequencer) : SequencerTurn s (nextTurn s).2 := by
  cases ht : s.turns with
  | nil => exact .inl ⟨ht, by rw [nextTurn_nil s ht]⟩
  | cons turn ts =>
    rw [nextTurn_cons s turn ts ht] at h ⊢
    exact .inr ⟨ts, ht.trans (congrArg (· :: ts) h), rfl⟩

theorem hostTurn_nextTurn {s : State} {a : HostAction} (h : (nextTurn s).1 = .host a) : HostTurn a s (nextTurn s).2 := by
  cases ht : s.turns with
  | nil => simp [nextTurn_nil s ht] at h
  | cons turn ts =>
    rw [nextTurn_cons s turn ts ht] at h ⊢
    exact ⟨ts, ht.trans (congrArg (· :: ts) h), rfl⟩

theorem step_of_hostTurn {a : HostAction} {s t : State} (h : HostTurn a s t) : step s = hostStep a t := by
  obtain ⟨ts, hts, rfl⟩ := h
  exact step_of_host hts

/-! ## What one step can do -/

/-- `Move u turn t`: in the state `u`, with `turn` taken, a step can lead to `t` (20_memory.md R69). -/
inductive Move (u : State) : Turn → State → Prop where
  /-- Halted, idle or held: no step is enabled (40_control.md R100). -/
  | waits : Move u .sequencer u
  /-- Fault entry for the head of CQ (60_exceptions.md R172). -/
  | faults (f : FaultReport) (w : Word) (rest : List Word) (hfault : u.fault = false) (hcq : u.cq = w :: rest) :
      Move u .sequencer (raiseFault f w u)
  /-- The head command, neither faulting nor held, takes its effect (R100). -/
  | completes (i : Instr) (w : Word) (rest : List Word) (hfault : u.fault = false) (hcq : u.cq = w :: rest)
      (hdecode : decode w = some i) (hpass : firstFault i u = none) (hfree : holdCondition i u = false) :
      Move u .sequencer (effectOf i u.popCommand)
  /-- A read without a side effect. -/
  | reads (a : HostAction) (v : Word) : Move u (.host a) { u with busData := some v }
  /-- A read of DOUT (R39). -/
  | takesByte (a : HostAction) (b : Byte) (rest : List Byte) (hdout : u.dout = b :: rest) :
      Move u (.host a) { u with dout := rest, busData := some (b.setWidth 32) }
  /-- A write of CMD (R37). -/
  | queuesCommand (a : HostAction) (w : Word) (hroom : u.cq.length < Config.cqDepth) :
      Move u (.host a) { u with cq := u.cq ++ [w] }
  /-- A write of DIN (R38). -/
  | queuesByte (a : HostAction) (b : Byte) (hroom : u.din.length < Config.dinDepth) :
      Move u (.host a) { u with din := u.din ++ [b] }
  /-- The RST input, or a write of 1 to CTRL (R47, R190). -/
  | resets (a : HostAction) : Move u (.host a) (resetBlock u)
  /-- A write of 0 to CTRL (R47). -/
  | writesNothing (a : HostAction) : Move u (.host a) u

theorem move_of_sequencerStep {u t : State} (h : sequencerStep u = .next t) : Move u .sequencer t := by
  rcases sequencerStep_cases u with ⟨-, hs⟩ | ⟨w, rest, hf, hc, -, hs⟩ | ⟨w, rest, i, hf, hc, hd, hs⟩
  · cases hs.symm.trans h
    exact .waits
  · cases hs.symm.trans h
    exact .faults _ w rest hf hc
  · rcases exec_cases i u with ⟨f, -, he⟩ | ⟨-, -, he⟩ | ⟨hpass, hfree, he⟩
    · rw [headWord_of_cons hc] at he
      cases (hs.trans he).symm.trans h
      exact .faults f w rest hf hc
    · cases (hs.trans he).symm.trans h
      exact .waits
    · cases (hs.trans he).symm.trans h
      exact .completes i w rest hf hc hd hpass hfree

theorem move_of_hostStep {a : HostAction} {u t : State} (h : hostStep a u = .next t) : Move u (.host a) t := by
  rcases hostStep_cases h with ⟨r, _, _, -, -, hr⟩ | ⟨r, _, _, w, -, -, hw⟩ | ⟨-, rfl⟩
  · rcases readReg_cases hr with ⟨v, rfl⟩ | ⟨b, rest, -, hd, rfl⟩
    · exact .reads a v
    · exact .takesByte a b rest hd
  · rcases writeReg_cases hw with ⟨-, hroom, rfl⟩ | ⟨-, hroom, rfl⟩ | ⟨-, -, rfl⟩ | ⟨-, -, rfl⟩
    · exact .queuesCommand a w hroom
    · exact .queuesByte a _ hroom
    · exact .resets a
    · exact .writesNothing a
  · exact .resets a

theorem move_of_step {s t : State} (h : step s = .next t) : Move (nextTurn s).2 (nextTurn s).1 t := by
  rcases step_cases s with ⟨hturn, hs⟩ | ⟨a, hturn, hs⟩
  · exact hturn ▸ move_of_sequencerStep (hs.symm.trans h)
  · exact hturn ▸ move_of_hostStep (hs.symm.trans h)

theorem move_keeps_genRom {u t : State} {turn : Turn} (h : Move u turn t) : t.genRom = u.genRom := by
  cases h with
  | completes i => exact (effectOf_host i u.popCommand).2.2
  | _ => rfl

/-- Settles O53: no move writes the parameter. -/
theorem noStepChangesTheConfiguration : Obligations.NoStepChangesTheConfiguration := fun s _ h =>
  (move_keeps_genRom (move_of_step h)).trans (nextTurn_snd_genRom s)

/-! ## The commands that complete -/

@[simp] theorem firstFault_popCommand (i : Instr) (s : State) : firstFault i s.popCommand = firstFault i s := by
  cases i <;> rfl

@[simp] theorem holdCondition_popCommand (i : Instr) (s : State) : holdCondition i s.popCommand = holdCondition i s := by
  cases i <;> rfl

theorem wbBytes_length_le (k : Nat) (wb : Wb) : (wbBytes k wb).length ≤ k :=
  (List.length_filterMap_le _ _).trans_eq List.length_range

/-- A byte of K_SET is not cut when KR takes it (R8, R23). -/
theorem toNat_ofNat_of_mem_kSet {rom : GenRom} (hwf : rom.wf = true) {k : Nat} (hk : k ∈ rom.kSet) :
    (BitVec.ofNat 8 k).toNat = k := by
  obtain ⟨-, hle⟩ := GenRom.kSet_bounds hwf hk
  rw [BitVec.toNat_ofNat, Nat.mod_eq_of_lt (by omega)]

/-- FMT reads two bits of its level and three of its mask (30_encoding.md R83). -/
theorem formatWord_mod (level mask : Nat) : formatWord level mask = formatWord (level % 4) (mask % 8) := by
  have hlevel : BitVec.ofNat 2 (level % 4) = BitVec.ofNat 2 level := by simp [← BitVec.toNat_inj]
  have hmask : BitVec.ofNat 3 (mask % 8) = BitVec.ofNat 3 mask := by simp [← BitVec.toNat_inj]
  simp only [formatWord, data5, lEnc, hlevel, hmask]

theorem effectOf_din_length_le (i : Instr) (t : State) : (effectOf i t).din.length ≤ t.din.length := by
  cases i with
  | rsblk d k => simp [effectOf]
  | _ => exact Nat.le_refl _

/-- A command that is not held finds room in DOUT for all it sends (40_control.md R101). -/
theorem effectOf_dout_length_le {i : Instr} {t : State} (hfree : holdCondition i t = false)
    (hle : t.dout.length ≤ Config.doutDepth) : (effectOf i t).dout.length ≤ Config.doutDepth := by
  cases i with
  | rdb idx =>
    have hroom : t.dout.length + 1 ≤ Config.doutDepth := by simpa [holdCondition] using hfree
    have hone : (readWb t.wb idx).byte?.toList.length ≤ 1 := Option.length_toList_le
    simp only [effectOf, State.pushDout_dout, List.length_append]
    omega
  | emit =>
    have hroom : t.dout.length + t.kr.toNat ≤ Config.doutDepth := by simpa [holdCondition] using hfree
    have hsent := wbBytes_length_le t.kr.toNat t.wb
    simp only [effectOf, State.pushDout_dout, List.length_append]
    omega
  | rsblk d k =>
    obtain ⟨-, hroom⟩ : d ≤ t.din.length ∧ t.dout.length + k ≤ Config.doutDepth := by simpa [holdCondition] using hfree
    have hsent := wbBytes_length_le k (blockWb t.genRom k (t.din.take d))
    simp only [effectOf, rsblkEffect_dout, List.length_append]
    omega
  | _ => exact hle

/-- A command that passes its checks writes only values of K_SET to KR (R23). -/
theorem effectOf_kr_mem {i : Instr} {t : State} (hwf : t.genRom.wf = true) (hpass : firstFault i t = none)
    (hkr : t.kv = true → t.kr.toNat ∈ t.genRom.kSet) (hkv : (effectOf i t).kv = true) :
    (effectOf i t).kr.toNat ∈ t.genRom.kSet := by
  cases i with
  | setk k =>
    have hk : k ∈ t.genRom.kSet := (checkK_eq_none_iff k t).mp hpass
    exact (toNat_ofNat_of_mem_kSet hwf hk).symm ▸ hk
  | rsblk d k =>
    obtain ⟨-, hcheck⟩ := Option.or_eq_none_iff.mp hpass
    have hk : k ∈ t.genRom.kSet := (checkK_eq_none_iff k t).mp hcheck
    exact (toNat_ofNat_of_mem_kSet hwf hk).symm ▸ hk
  | _ => exact hkr hkv

/-- Only FMT writes FMTR, and it writes a format word (R25). -/
theorem effectOf_fmtr_word {i : Instr} {t : State}
    (hword : t.fv = true → ∃ level mask, level < 4 ∧ mask < 8 ∧ t.fmtr = formatWord level mask)
    (hfv : (effectOf i t).fv = true) :
    ∃ level mask, level < 4 ∧ mask < 8 ∧ (effectOf i t).fmtr = formatWord level mask := by
  cases i with
  | fmt level mask =>
    exact ⟨level % 4, mask % 8, Nat.mod_lt _ (by decide), Nat.mod_lt _ (by decide), formatWord_mod level mask⟩
  | _ => exact hword hfv

/-! ## The invariant -/

/-- The turns and the value last read are the host's, and no part of the invariant. -/
theorem inv_withHost {s : State} (h : s.Inv) (turns : List Turn) (busData : Option Word) :
    State.Inv { s with turns := turns, busData := busData } := { h with }

theorem inv_nextTurn {s : State} (h : s.Inv) : (nextTurn s).2.Inv := by
  rw [nextTurn_snd]
  exact inv_withHost h s.turns.tail s.busData

theorem inv_reset {rom : GenRom} (hwf : rom.wf = true) : State.Inv { State.reset with genRom := rom } where
  rom_wf := hwf
  cq_le := Nat.zero_le _
  din_le := Nat.zero_le _
  dout_le := Nat.zero_le _
  kr_mem := nofun
  fmtr_word := nofun
  fault_clear _ := ⟨rfl, rfl, rfl⟩
  fault_code := nofun

/-- Settles O44: the default table meets the constraint, and the rest holds of any table. -/
theorem resetMeetsTheInvariant : Obligations.ResetMeetsTheInvariant :=
  ⟨inv_reset defaultGenRom_wf, fun _ hwf => inv_reset hwf⟩

theorem inv_resetBlock {s : State} (h : s.Inv) : (resetBlock s).Inv := inv_withHost (inv_reset h.rom_wf) s.turns s.busData

theorem inv_popCommand {s : State} (h : s.Inv) : s.popCommand.Inv :=
  { h with cq_le := by simpa using (Nat.sub_le _ 1).trans h.cq_le }

/-- The codes of R171. -/
theorem faultCode_toByte_bounds (c : FaultCode) : 1 ≤ c.toByte.toNat ∧ c.toByte.toNat ≤ 6 := by
  cases c <;> decide

theorem inv_raiseFault {s : State} (h : s.Inv) (f : FaultReport) (w : Word) : (raiseFault f w s).Inv :=
  { inv_popCommand h with
    fault_clear := nofun
    fault_code := fun _ => faultCode_toByte_bounds f.code }

theorem inv_effectOf {i : Instr} {t : State} (h : t.Inv) (hpass : firstFault i t = none)
    (hfree : holdCondition i t = false) : (effectOf i t).Inv := by
  obtain ⟨-, -, hrom⟩ := effectOf_host i t
  obtain ⟨hcq, hfault, hcode, hcmd, hinfo⟩ := effectOf_frame i t
  exact
    { rom_wf := hrom ▸ h.rom_wf
      cq_le := hcq ▸ h.cq_le
      din_le := (effectOf_din_length_le i t).trans h.din_le
      dout_le := effectOf_dout_length_le hfree h.dout_le
      kr_mem := hrom ▸ effectOf_kr_mem h.rom_wf hpass h.kr_mem
      fmtr_word := effectOf_fmtr_word h.fmtr_word
      fault_clear := by rw [hfault, hcode, hcmd, hinfo]; exact h.fault_clear
      fault_code := by rw [hfault, hcode]; exact h.fault_code }

theorem inv_move {u t : State} {turn : Turn} (h : u.Inv) (hmove : Move u turn t) : t.Inv := by
  cases hmove with
  | waits => exact h
  | faults f w => exact inv_raiseFault h f w
  | completes i _ _ _ _ _ hpass hfree =>
    exact inv_effectOf (inv_popCommand h) ((firstFault_popCommand i u).trans hpass)
      ((holdCondition_popCommand i u).trans hfree)
  | reads _ v => exact inv_withHost h u.turns (some v)
  | takesByte _ b rest hdout =>
    have hrest : rest.length ≤ Config.doutDepth := by
      have hle := h.dout_le
      rw [hdout, List.length_cons] at hle
      omega
    exact { h with dout_le := hrest }
  | queuesCommand _ w hroom => exact { h with cq_le := by simpa using hroom }
  | queuesByte _ b hroom => exact { h with din_le := by simpa using hroom }
  | resets => exact inv_resetBlock h
  | writesNothing => exact h

/-- Settles O45: taking the turn keeps the invariant, and so does every move. -/
theorem everyStepKeepsTheInvariant : Obligations.EveryStepKeepsTheInvariant := fun _ _ h hstep =>
  inv_move (inv_nextTurn h) (move_of_step hstep)


/-! ## Which commands write which state -/

theorem writesWb_of_effectOf {i : Instr} {t : State} (h : (effectOf i t).wb ≠ t.wb) :
    i = .clr ∨ (∃ idx val, i = .ldb idx val) ∨ i = .step ∨ ∃ d k, i = .rsblk d k := by
  cases i with
  | clr => exact .inl rfl
  | ldb idx val => exact .inr (.inl ⟨idx, val, rfl⟩)
  | step => exact .inr (.inr (.inl rfl))
  | rsblk d k => exact .inr (.inr (.inr ⟨d, k, rfl⟩))
  | _ => exact absurd rfl h

theorem writesKr_of_effectOf {i : Instr} {t : State} (h : (effectOf i t).kr ≠ t.kr ∨ (effectOf i t).kv ≠ t.kv) :
    (∃ k, i = .setk k) ∨ ∃ d k, i = .rsblk d k := by
  cases i with
  | setk k => exact .inl ⟨k, rfl⟩
  | rsblk d k => exact .inr ⟨d, k, rfl⟩
  | _ => exact h.elim (absurd rfl) (absurd rfl)

theorem writesFmtr_of_effectOf {i : Instr} {t : State} (h : (effectOf i t).fmtr ≠ t.fmtr ∨ (effectOf i t).fv ≠ t.fv) :
    ∃ level mask, i = .fmt level mask := by
  cases i with
  | fmt level mask => exact ⟨level, mask, rfl⟩
  | _ => exact h.elim (absurd rfl) (absurd rfl)

theorem writesDin_of_effectOf {i : Instr} {t : State} (h : (effectOf i t).din ≠ t.din) : ∃ d k, i = .rsblk d k := by
  cases i with
  | rsblk d k => exact ⟨d, k, rfl⟩
  | _ => exact absurd rfl h

theorem writesDout_of_effectOf {i : Instr} {t : State} (h : (effectOf i t).dout ≠ t.dout) :
    (∃ idx, i = .rdb idx) ∨ i = .emit ∨ ∃ d k, i = .rsblk d k := by
  cases i with
  | rdb idx => exact .inl ⟨idx, rfl⟩
  | emit => exact .inr (.inl rfl)
  | rsblk d k => exact .inr (.inr ⟨d, k, rfl⟩)
  | _ => exact absurd rfl h

/-- Settles O29: fault entry and a hold write none of this state, and of the effects each field's lemma names the writers. -/
theorem onlyTheNamedCommandsWriteEachState : Obligations.OnlyTheNamedCommandsWriteEachState := by
  intro i s t h
  rcases exec_cases i s with ⟨f, -, he⟩ | ⟨-, -, he⟩ | ⟨-, -, he⟩ <;> cases he.symm.trans h
  case inl => simp
  case inr.inl => simp
  case inr.inr =>
    obtain ⟨hturns, hbus, hrom⟩ := effectOf_host i s.popCommand
    obtain ⟨hcq, -⟩ := effectOf_frame i s.popCommand
    exact ⟨writesWb_of_effectOf, writesKr_of_effectOf, writesFmtr_of_effectOf, writesDin_of_effectOf,
      writesDout_of_effectOf, .inr hcq, hturns, hbus, hrom⟩

/-! ## The fault state and reset -/

theorem resetState_resetBlock (s : State) : ResetState (resetBlock s) := by
  simp +contextual [ResetState]

/-- Settles O31: of the moves only fault entry and a reset write the fault state. -/
theorem faultStateIsWrittenByEntryAndResetOnly : Obligations.FaultStateIsWrittenByEntryAndResetOnly := by
  intro s t h
  have hmove := move_of_step h
  generalize hturn : (nextTurn s).1 = turn at hmove
  cases hmove with
  | faults f w rest hfault hcq =>
    exact .inr (.inl ⟨_, w, rest, f.code.toByte, f.info, sequencerTurn_nextTurn hturn,
      (nextTurn_snd_fault s).symm.trans hfault, (nextTurn_snd_cq s).symm.trans hcq, rfl⟩)
  | completes i =>
    obtain ⟨-, hfault, hcode, hcmd, hinfo⟩ := effectOf_frame i (nextTurn s).2.popCommand
    exact .inl (by simp [hfault, hcode, hcmd, hinfo])
  | resets a => exact .inr (.inr ⟨⟨a, _, hostTurn_nextTurn hturn⟩, resetState_resetBlock _⟩)
  | _ => exact .inl (by simp)

/-- Settles O42: the reset state is a block reset, and its STATUS and counts are read off it. -/
theorem resetValuesAreTheSpecs : Obligations.ResetValuesAreTheSpecs :=
  ⟨resetState_resetBlock State.reset, by decide +kernel, rfl, rfl, rfl⟩

/-! ## The tables -/

/-- Multiplication by `x` on numbers, as R27 writes it. -/
theorem timesX_toNat (b : Byte) : (timesX b).toNat = (b.toNat <<< 1) ^^^ (if 128 ≤ b.toNat then 0x11D else 0) := by
  revert b
  decide +kernel

/-- Settles O25: the next entry of ALOG is the product with `x`. -/
theorem alogFollowsItsRecurrence : Obligations.AlogFollowsItsRecurrence :=
  ⟨rfl, alogRom_length, fun i _ => by rw [alog_succ, timesX_toNat]⟩

theorem logRom_lt : ∀ e ∈ logRom, e < 255 := by decide +kernel

theorem log_lt {b : Byte} {i : Nat} (h : log b = some i) : i < 255 := by
  unfold log at h
  split at h
  · cases h
  · exact logRom_lt i (List.mem_of_getElem? h)

/-- LOG is a left inverse of ALOG (R28). -/
theorem log_alog : ∀ j, j < 255 → log (alog j) = some j := by decide +kernel

/-- Settles O26: LOG is an inverse of ALOG on both sides. -/
theorem logInvertsAlog : Obligations.LogInvertsAlog := by
  refine ⟨log_zero, fun b hb => ?_⟩
  obtain ⟨i, hi⟩ := Option.ne_none_iff_exists'.mp (mt (log_eq_none_iff b).mp hb)
  refine ⟨i, log_lt hi, hi, alog_log hi, fun j hj hjb => ?_⟩
  have hlog : log b = some j := hjb ▸ log_alog j hj
  exact Option.some.inj (hlog.symm.trans hi)

/-- Settles O27: the products of the 13 rows of the default table, multiplied out. -/
theorem generatorRowsAreTheRootProducts : Obligations.GeneratorRowsAreTheRootProducts := by
  unfold Obligations.GeneratorRowsAreTheRootProducts RootProducts
  decide +kernel

/-! ## Accesses of the host -/

/-- The registers stand at the multiples of 4 below 0x2C (R36). -/
theorem hostRegAt_offset {off : Nat} {r : HostReg} (h : hostRegAt off = some r) : off < 0x2C ∧ off % 4 = 0 := by
  obtain ⟨before, rest, hmap, -⟩ := List.lookup_eq_some_iff.mp h
  have hall : ∀ p ∈ before ++ (off, r) :: rest, p.1 < 0x2C ∧ p.1 % 4 = 0 := by
    rw [← hmap]
    decide
  exact hall (off, r) (by simp)

theorem decodeAccess_register_of_hostRegAt {off : Nat} {r : HostReg} (h : hostRegAt off = some r) :
    decodeAccess (Config.rsbchBase + off) 32 = .inl r := by
  obtain ⟨hlt, halign⟩ := hostRegAt_offset h
  exact decodeAccess_of_reg h (by omega) halign

/-- A 32-bit read at a register's offset is a read of the register (R36). -/
theorem step_of_read {off : Nat} {r : HostReg} {s t : State} (hr : hostRegAt off = some r)
    (h : HostTurn (.read (Config.rsbchBase + off) 32) s t) : step s = readReg r t := by
  rw [step_of_hostTurn h, hostStep, decodeAccess_register_of_hostRegAt hr]

/-- A 32-bit write at a register's offset is a write of the register (R36). -/
theorem step_of_write {off : Nat} {r : HostReg} {w : Word} {s t : State} (hr : hostRegAt off = some r)
    (h : HostTurn (.write (Config.rsbchBase + off) 32 w) s t) : step s = writeReg r w t := by
  rw [step_of_hostTurn h, hostStep, decodeAccess_register_of_hostRegAt hr]

theorem decodeAccess_refused {off width : Nat} (hoff : off < 0x100) (hbad : width ≠ 32 ∨ off % 4 ≠ 0 ∨ 0x2C ≤ off) :
    ∃ why, decodeAccess (Config.rsbchBase + off) width = .inr why := by
  cases hd : decodeAccess (Config.rsbchBase + off) width with
  | inr why => exact ⟨why, rfl⟩
  | inl r =>
    obtain ⟨hwidth, off', -, -, haddr, hreg⟩ := decodeAccess_register hd
    obtain ⟨hlt, halign⟩ := hostRegAt_offset hreg
    omega

/-- Settles O41: the access decodes to a refusal, in either direction. -/
theorem malformedAccessesAreRefused : Obligations.MalformedAccessesAreRefused := by
  intro s t off width w hoff hbad
  obtain ⟨why, hwhy⟩ := decodeAccess_refused hoff hbad
  exact ⟨fun h => ⟨why, by rw [step_of_hostTurn h, hostStep, hwhy]⟩,
    fun h => ⟨why, by rw [step_of_hostTurn h, hostStep, hwhy]⟩⟩

/-! ## The host registers -/

/-- The bits of a word from `lo` on are 0 exactly when it is below `2^lo`. -/
theorem extractLsb'_high_eq_zero_iff (w : Word) {lo len : Nat} (h : lo + len = 32) :
    w.extractLsb' lo len = 0 ↔ w.toNat < 2 ^ lo := by
  have hlt : w.toNat / 2 ^ lo < 2 ^ len := by
    rw [Nat.div_lt_iff_lt_mul (by positivity), ← pow_add, add_comm, h]
    exact w.isLt
  rw [← BitVec.toNat_inj, BitVec.extractLsb'_toNat, Nat.shiftRight_eq_div_pow, Nat.mod_eq_of_lt hlt]
  exact Nat.div_eq_zero_iff_lt (by positivity)

theorem writeCmd_of_lt {w : Word} {t : State} (h : t.cq.length < Config.cqDepth) :
    writeCmd w t = .next { t with cq := t.cq ++ [w] } := if_pos h

theorem writeCmd_of_full {w : Word} {t : State} (h : t.cq.length = Config.cqDepth) :
    writeCmd w t = .refused .commandQueueFull := if_neg h.not_lt

/-- Settles O34: a write of CMD is `writeCmd`, with room and without. -/
theorem cmdWriteQueuesTheWord : Obligations.CmdWriteQueuesTheWord := by
  refine ⟨fun s t w h => ?_, fun s t h => step_of_read (off := 0) (r := .cmd) rfl h⟩
  rw [step_of_write (off := 0) (r := .cmd) rfl h]
  obtain ⟨ts, -, rfl⟩ := h
  exact ⟨fun hroom => writeCmd_of_lt hroom, fun hfull => writeCmd_of_full hfull⟩

theorem writeDin_of_lt {w : Word} {t : State} (hw : w.toNat < 256) (h : t.din.length < Config.dinDepth) :
    writeDin w t = .next { t with din := t.din ++ [BitVec.ofNat 8 w.toNat] } := by
  have hzero := (extractLsb'_high_eq_zero_iff w (lo := 8) (len := 24) rfl).mpr hw
  simp [writeDin, hzero, h]

theorem writeDin_of_full {w : Word} {t : State} (hw : w.toNat < 256) (h : t.din.length = Config.dinDepth) :
    writeDin w t = .refused .inputQueueFull := by
  have hzero := (extractLsb'_high_eq_zero_iff w (lo := 8) (len := 24) rfl).mpr hw
  simp [writeDin, hzero, h]

theorem writeDin_of_reserved {w : Word} {t : State} (hw : 256 ≤ w.toNat) : writeDin w t = .refused .dinReservedBits :=
  if_pos fun hzero => absurd ((extractLsb'_high_eq_zero_iff w rfl).mp hzero) hw.not_gt

/-- Settles O35: a write of DIN is `writeDin`, in its three cases. -/
theorem dinWriteQueuesTheByte : Obligations.DinWriteQueuesTheByte := by
  refine ⟨fun s t w h => ?_, fun s t h => step_of_read (r := .din) rfl h⟩
  rw [step_of_write (r := .din) rfl h]
  obtain ⟨ts, -, rfl⟩ := h
  exact ⟨fun hw hroom => writeDin_of_lt hw hroom, writeDin_of_reserved, fun hw hfull => writeDin_of_full hw hfull⟩

theorem readReg_dout_of_cons {t : State} {b : Byte} {rest : List Byte} (h : t.dout = b :: rest) :
    readReg .dout t = .next { t with dout := rest, busData := some (BitVec.ofNat 32 b.toNat) } := by
  simp [readReg, hostReturns, h]

theorem readReg_dout_of_nil {t : State} (h : t.dout = []) : readReg .dout t = .refused .outputQueueEmpty := by
  simp [readReg, h]

/-- Settles O36: a read of DOUT, by the form of the queue. -/
theorem doutReadTakesTheHeadByte : Obligations.DoutReadTakesTheHeadByte := by
  refine ⟨fun s t h => ?_, fun s t w h => step_of_write (r := .dout) rfl h⟩
  rw [step_of_read (r := .dout) rfl h]
  obtain ⟨ts, -, rfl⟩ := h
  exact ⟨fun _ _ hcons => readReg_dout_of_cons hcons, fun hnil => readReg_dout_of_nil hnil⟩

theorem readReg_fmtr_of_valid {t : State} (h : t.fv = true) :
    readReg .fmtr t = .next { t with busData := some (BitVec.ofNat 32 t.fmtr.toNat) } := by
  simp [readReg, hostReturns, h]

theorem readReg_fmtr_of_unset {t : State} (h : t.fv = false) : readReg .fmtr t = .refused .formatUnset := by
  simp [readReg, h]

/-- Settles O38: a read of FMTR, by FV. -/
theorem fmtrReadShowsTheFormatWord : Obligations.FmtrReadShowsTheFormatWord := by
  refine ⟨fun s t h => ?_, fun s t w h => step_of_write (r := .fmtr) rfl h⟩
  rw [step_of_read (r := .fmtr) rfl h]
  obtain ⟨ts, -, rfl⟩ := h
  exact ⟨fun hfv => readReg_fmtr_of_valid hfv, fun hfv => readReg_fmtr_of_unset hfv⟩

theorem readReg_errinfo (t : State) :
    readReg .errinfo t = .next { t with busData := some (BitVec.ofNat 32 t.errinfo.toNat) } := by
  simp [readReg, hostReturns]

/-- The five registers of R42 to R46 are read-only. -/
theorem step_of_write_errorOrCount {off : Nat} {w : Word} {s t : State} (hoff : off ∈ [0x14, 0x18, 0x1C, 0x20, 0x24])
    (h : HostTurn (.write (Config.rsbchBase + off) 32 w) s t) : step s = .refused .writeOfReadOnly := by
  have hreg : ∀ off ∈ [0x14, 0x18, 0x1C, 0x20, 0x24], ∃ r, hostRegAt off = some r ∧
      r ∈ [HostReg.errcmd, .errinfo, .cqcnt, .dincnt, .doutcnt] := by decide
  obtain ⟨r, hr, hmem⟩ := hreg off hoff
  rw [step_of_write hr h]
  fin_cases hmem <;> rfl

/-- Settles O39: each read returns its register's value; the counts that fit are shown whole. -/
theorem errorAndCountRegistersRead : Obligations.ErrorAndCountRegistersRead := by
  refine ⟨?_, ?_, ?_, ?_, ?_, fun s t w off hoff h => step_of_write_errorOrCount hoff h⟩
  · rintro s _ ⟨ts, hts, rfl⟩
    refine ⟨step_of_read (r := .errcmd) rfl ⟨ts, hts, rfl⟩, fun hinv hfault => ?_⟩
    obtain ⟨-, hcmd, -⟩ := hinv.fault_clear hfault
    exact hcmd
  · rintro s _ ⟨ts, hts, rfl⟩
    exact (step_of_read rfl ⟨ts, hts, rfl⟩).trans (readReg_errinfo _)
  · rintro s _ ⟨ts, hts, rfl⟩ hn
    exact ⟨countWord s.cq.length, step_of_read (r := .cqcnt) rfl ⟨ts, hts, rfl⟩, countWord_toNat hn⟩
  · rintro s _ ⟨ts, hts, rfl⟩ hn
    exact ⟨countWord s.din.length, step_of_read (r := .dincnt) rfl ⟨ts, hts, rfl⟩, countWord_toNat hn⟩
  · rintro s _ ⟨ts, hts, rfl⟩ hn
    exact ⟨countWord s.dout.length, step_of_read (r := .doutcnt) rfl ⟨ts, hts, rfl⟩, countWord_toNat hn⟩

theorem writeCtrl_of_reserved {w : Word} {t : State} (hw : 2 ≤ w.toNat) : writeCtrl w t = .refused .ctrlReservedBits :=
  if_pos fun hzero => absurd ((extractLsb'_high_eq_zero_iff w rfl).mp hzero) hw.not_gt

theorem writeCtrl_one (t : State) : writeCtrl 1 t = .next (resetBlock t) := by simp [writeCtrl]

theorem writeCtrl_zero (t : State) : writeCtrl 0 t = .next t := by simp [writeCtrl]

/-- Settles O40: a write of CTRL is `writeCtrl`, in its three cases. -/
theorem ctrlWriteOfOneResets : Obligations.CtrlWriteOfOneResets := by
  refine ⟨fun s t w h => ?_, fun s t h => step_of_read (r := .ctrl) rfl h⟩
  rw [step_of_write (r := .ctrl) rfl h]
  refine ⟨?_, ?_, writeCtrl_of_reserved⟩
  · rintro rfl
    exact ⟨resetBlock t, writeCtrl_one t, resetState_resetBlock t, resetBlock_turns t⟩
  · rintro rfl
    exact writeCtrl_zero t

/-! ## STATUS, and the fault checks and hold conditions behind its HELD bit -/

/-- The claims' reading of the fault checks is the model's (60_exceptions.md R171, R173, R174). -/
theorem faultsWith_iff (i : Instr) (s : State) (code info : Byte) :
    FaultsWith i s code info ↔ ∃ f, firstFault i s = some f ∧ code = f.code.toByte ∧ info = f.info := by
  cases i with
  | nop => simp [FaultsWith, firstFault]
  | clr => simp [FaultsWith, firstFault]
  | ldb idx val => by_cases hidx : 123 ≤ idx <;> simp [FaultsWith, firstFault, checkIndex, FaultCode.toByte, hidx]
  | setk k => by_cases hk : k ∈ s.genRom.kSet <;> simp [FaultsWith, firstFault, checkK, FaultCode.toByte, hk]
  | step =>
    cases hkv : s.kv with
    | false => simp [FaultsWith, firstFault, checkKv, FaultCode.toByte, hkv]
    | true =>
      by_cases hcell : readWb s.wb 0 = .poison <;>
        simp [FaultsWith, firstFault, checkKv, checkCell, FaultCode.toByte, hkv, hcell]
  | rdb idx =>
    by_cases hidx : 123 ≤ idx
    · simp [FaultsWith, firstFault, checkIndex, FaultCode.toByte, hidx, hidx.not_gt]
    · by_cases hcell : readWb s.wb idx = .poison <;>
        simp [FaultsWith, firstFault, checkIndex, checkCell, FaultCode.toByte, hidx, hcell, Nat.not_le.mp hidx]
  | emit =>
    cases hkv : s.kv with
    | false => simp [FaultsWith, firstFault, checkKv, FaultCode.toByte, hkv]
    | true =>
      simp [FaultsWith, firstFault, checkKv, checkCells, FaultCode.toByte, hkv, lowestPoison_eq_some_iff, and_assoc,
        and_left_comm]
  | rsblk d k =>
    by_cases hd : 123 < d
    · simp [FaultsWith, firstFault, checkD, FaultCode.toByte, hd, hd.not_ge]
    · by_cases hk : k ∈ s.genRom.kSet <;>
        simp [FaultsWith, firstFault, checkD, checkK, FaultCode.toByte, hd, hk, Nat.not_lt.mp hd]
  | fmt level mask => simp [FaultsWith, firstFault]

theorem noFault_iff (i : Instr) (s : State) : NoFault i s ↔ firstFault i s = none := by
  simp only [NoFault, faultsWith_iff, Option.eq_none_iff_forall_not_mem, Option.mem_def]
  exact ⟨fun h f hf => h _ _ ⟨f, hf, rfl, rfl⟩, fun h _ _ ⟨f, hf, _⟩ => h f hf⟩

/-- The claims' reading of the hold conditions is the model's (40_control.md R101). -/
theorem holdCondition_iff (i : Instr) (s : State) : HoldCondition i s ↔ holdCondition i s = true := by
  cases i <;> simp [HoldCondition, holdCondition]

theorem held_iff (i : Instr) (s : State) : held i s = true ↔ NoFault i s ∧ HoldCondition i s := by
  rw [noFault_iff, holdCondition_iff, held, Bool.and_eq_true, Option.isNone_iff_eq_none]

theorem heldFlag_iff (s : State) : heldFlag s = true ↔ s.fault = false ∧ ∃ w rest i, s.cq = w :: rest ∧
    decode w = some i ∧ NoFault i s ∧ HoldCondition i s := by
  have hhead : heldFlag s = true ↔ ∃ w i, fetchCommand s = some w ∧ decode w = some i ∧ held i s = true := by
    unfold heldFlag
    cases fetchCommand s with
    | none => simp
    | some w => cases hd : decode w <;> simp [hd]
  simp only [hhead, fetchCommand_eq_some_iff, held_iff]
  constructor
  · rintro ⟨w, i, ⟨hfault, rest, hcq⟩, hrun⟩
    exact ⟨hfault, w, rest, i, hcq, hrun⟩
  · rintro ⟨hfault, w, rest, i, hcq, hrun⟩
    exact ⟨w, i, ⟨hfault, rest, hcq⟩, hrun⟩

theorem idleFlag_iff (s : State) : idleFlag s = true ↔ s.cq = [] := List.isEmpty_iff

/-! ### Below the fields of STATUS stand its five flags -/

theorem getLsbD_append_ofBool_zero {n : Nat} (x : BitVec n) (b : Bool) : (x ++ BitVec.ofBool b).getLsbD 0 = b := by
  rw [BitVec.getLsbD_append, if_pos Nat.one_pos]
  cases b <;> rfl

theorem getLsbD_append_ofBool_succ {n : Nat} (x : BitVec n) (b : Bool) (i : Nat) :
    (x ++ BitVec.ofBool b).getLsbD (i + 1) = x.getLsbD i := by
  rw [BitVec.getLsbD_append, if_neg (by omega), Nat.add_sub_cancel]

theorem extractLsb'_append_ofBool_succ {n : Nat} (x : BitVec n) (b : Bool) (lo len : Nat) :
    (x ++ BitVec.ofBool b).extractLsb' (lo + 1) len = x.extractLsb' lo len := by
  rw [BitVec.extractLsb'_append_eq_of_le (by omega), Nat.add_sub_cancel]

theorem statusWord_fault (s : State) : (statusWord s).getLsbD 0 = s.fault := getLsbD_append_ofBool_zero _ _

theorem statusWord_kv (s : State) : (statusWord s).getLsbD 1 = s.kv := by
  rw [statusWord, getLsbD_append_ofBool_succ, getLsbD_append_ofBool_zero]

theorem statusWord_fv (s : State) : (statusWord s).getLsbD 2 = s.fv := by
  rw [statusWord]
  iterate 2 rw [getLsbD_append_ofBool_succ]
  rw [getLsbD_append_ofBool_zero]

theorem statusWord_held (s : State) : (statusWord s).getLsbD 3 = heldFlag s := by
  rw [statusWord]
  iterate 3 rw [getLsbD_append_ofBool_succ]
  rw [getLsbD_append_ofBool_zero]

theorem statusWord_idle (s : State) : (statusWord s).getLsbD 4 = idleFlag s := by
  rw [statusWord]
  iterate 4 rw [getLsbD_append_ofBool_succ]
  rw [getLsbD_append_ofBool_zero]

/-- The fields of STATUS above its five flags (R40). -/
def statusFields (s : State) : BitVec 27 := 0#8 ++ statusK s ++ s.errcode ++ 0#3

theorem statusWord_field (s : State) (lo len : Nat) :
    (statusWord s).extractLsb' (lo + 5) len = (statusFields s).extractLsb' lo len := by
  rw [statusWord]
  iterate 5 rw [extractLsb'_append_ofBool_succ]
  rfl

theorem statusWord_reserved_low (s : State) : (statusWord s).extractLsb' 5 3 = 0 := by
  rw [statusWord_field s 0, statusFields, BitVec.extractLsb'_append_eq_right]
  rfl

theorem statusWord_errcode (s : State) : (statusWord s).extractLsb' 8 8 = s.errcode := by
  rw [statusWord_field s 3, statusFields, BitVec.extractLsb'_append_eq_of_le (by decide), BitVec.extractLsb'_append_eq_right]

theorem statusWord_k (s : State) : (statusWord s).extractLsb' 16 8 = statusK s := by
  rw [statusWord_field s 11, statusFields]
  iterate 2 rw [BitVec.extractLsb'_append_eq_of_le (by decide)]
  rw [BitVec.extractLsb'_append_eq_right]

theorem statusWord_reserved_high (s : State) : (statusWord s).extractLsb' 24 8 = 0 := by
  rw [statusWord_field s 19, statusFields]
  iterate 2 rw [BitVec.extractLsb'_append_eq_of_le (by decide)]
  rw [BitVec.extractLsb'_append_eq_left]
  rfl

/-- Settles O37: the word put together from the flags and fields gives each of them back. -/
theorem statusShowsItsFields : Obligations.StatusShowsItsFields := by
  refine ⟨?_, fun s t w h => step_of_write (r := .status) rfl h⟩
  rintro s _ ⟨ts, hts, rfl⟩
  refine ⟨statusWord s, step_of_read (r := .status) rfl ⟨ts, hts, rfl⟩, statusWord_fault s, statusWord_kv s,
    statusWord_fv s, ?_, ?_, statusWord_reserved_low s, statusWord_errcode s, statusWord_k s, statusWord_reserved_high s⟩
  · rw [statusWord_held, heldFlag_iff]
  · rw [statusWord_idle, idleFlag_iff]

end Sys2Proof.Proofs
end

section
/-! PROOFS. The family 20_memory.md: the queues are first in, first out (R70).

Each `Move` other than a reset touches the queues at one end: the sequencer takes the head of CQ, takes from the head of DIN
and adds to the tail of DOUT; the host adds to the tail of CQ or DIN, or takes the head of DOUT. -/

namespace Sys2Proof.Proofs

open Sys2Proof Sys2Proof.Machine Sys2Proof.Claims

theorem effectOf_takes_din (i : Instr) (t : State) : ∃ taken, t.din = taken ++ (effectOf i t).din := by
  cases i with
  | rsblk d k => exact ⟨t.din.take d, (List.take_append_drop d t.din).symm⟩
  | _ => exact ⟨[], rfl⟩

theorem effectOf_adds_dout (i : Instr) (t : State) : ∃ out, (effectOf i t).dout = t.dout ++ out := by
  cases i with
  | rdb idx => exact ⟨_, rfl⟩
  | emit => exact ⟨_, rfl⟩
  | rsblk d k => exact ⟨_, rfl⟩
  | _ => exact ⟨[], (List.append_nil _).symm⟩

/-- Settles O33: taking the turn leaves the queues, and each move adds at a tail or takes from a head. -/
theorem queuesAreFirstInFirstOut : Obligations.QueuesAreFirstInFirstOut := by
  intro s t h
  have hmove := move_of_step h
  rw [← nextTurn_snd_cq s, ← nextTurn_snd_din s, ← nextTurn_snd_dout s]
  generalize (nextTurn s).2 = u, (nextTurn s).1 = turn at hmove ⊢
  have hdin : ∃ taken, u.din = taken ++ u.din := ⟨[], rfl⟩
  have hdout : ∃ out, u.dout = u.dout ++ out := ⟨[], (List.append_nil _).symm⟩
  have hpop {w : Word} {rest : List Word} (hcq : u.cq = w :: rest) : u.cq = w :: u.cq.tail := by rw [hcq, List.tail_cons]
  cases hmove with
  | faults f w rest _ hcq => exact .inr ⟨.inr (.inr ⟨w, hpop hcq⟩), .inr hdin, .inl hdout⟩
  | completes i w rest _ hcq =>
    obtain ⟨hqueue, -⟩ := effectOf_frame i u.popCommand
    exact .inr ⟨.inr (.inr ⟨w, hqueue ▸ hpop hcq⟩), .inr (effectOf_takes_din i u.popCommand),
      .inl (effectOf_adds_dout i u.popCommand)⟩
  | takesByte _ b rest htake => exact .inr ⟨.inl rfl, .inr hdin, .inr ⟨b, htake⟩⟩
  | queuesCommand _ w => exact .inr ⟨.inr (.inl ⟨w, rfl⟩), .inr hdin, .inl hdout⟩
  | queuesByte _ b => exact .inr ⟨.inl rfl, .inl ⟨b, rfl⟩, .inl hdout⟩
  | resets => exact .inl (resetState_resetBlock u)
  | _ => exact .inr ⟨.inl rfl, .inr hdin, .inl hdout⟩

end Sys2Proof.Proofs
end

section
/-! PROOFS. The family 30_encoding.md: the decoder, the encoder and the assembler.

Every row of the opcode map fixes all four bits of OP, and no two rows fix the same value; so a word belongs to at most one
row, and the first row `decode` finds is the word's only one. Decoding and encoding are then compared row by row. -/

namespace Sys2Proof.Proofs

open Sys2Proof Sys2Proof.Machine Sys2Proof.Claims

/-! ## The fields of a word -/

theorem field_lt (w : Word) (lo len : Nat) : field w lo len < 2 ^ len := (w.extractLsb' lo len).isLt

/-- A field that the mask of a row covers is the field of the row's pattern. -/
theorem field_of_row {w m p : Word} {lo len : Nat} (hm : m.extractLsb' lo len = BitVec.allOnes len) (h : w &&& m = p) :
    field w lo len = field p lo len := by
  rw [field, field, ← h, BitVec.extractLsb'_and, hm, BitVec.and_allOnes]

theorem ofNat_field (w : Word) (lo len : Nat) : BitVec.ofNat len (field w lo len) = w.extractLsb' lo len := by
  rw [field, BitVec.ofNat_toNat, BitVec.setWidth_eq]

/-- A word is made of its five fields (R82). -/
theorem packAB_eq {w : Word} {op a b : Nat} (hop : field w 28 4 = op) (hhigh : field w 24 4 = 0) (ha : field w 16 8 = a)
    (hmid : field w 8 8 = 0) (hb : field w 0 8 = b) : packAB op a b = w := by
  have hsplit : w.extractLsb' 28 4 ++ w.extractLsb' 24 4 ++ w.extractLsb' 16 8 ++ w.extractLsb' 8 8 ++ w.extractLsb' 0 8 = w := by
    simp only [BitVec.extractLsb'_append_extractLsb'_eq_extractLsb', BitVec.extractLsb'_eq_self]
  rwa [← ofNat_field w 28, ← ofNat_field w 24, ← ofNat_field w 16, ← ofNat_field w 8, ← ofNat_field w 0, hop, hhigh, ha,
    hmid, hb] at hsplit

/-- A word of format F is made of its four fields (R82). -/
theorem packF_eq {w : Word} {op level mask : Nat} (hop : field w 28 4 = op) (hhigh : field w 5 23 = 0)
    (hlevel : field w 3 2 = level) (hmask : field w 0 3 = mask) : packF op level mask = w := by
  have hsplit : w.extractLsb' 28 4 ++ w.extractLsb' 5 23 ++ w.extractLsb' 3 2 ++ w.extractLsb' 0 3 = w := by
    simp only [BitVec.extractLsb'_append_extractLsb'_eq_extractLsb', BitVec.extractLsb'_eq_self]
  rwa [← ofNat_field w 28, ← ofNat_field w 5, ← ofNat_field w 3, ← ofNat_field w 0, hop, hhigh, hlevel, hmask] at hsplit

/-! ## The rows of the opcode map -/

theorem admits_iff (r : OpRow) (w : Word) : r.admits w = true ↔ w &&& r.mask = r.pattern := beq_iff_eq

/-- The statements' pairs are the rows of the model's opcode map (R84). -/
theorem exists_row_iff (w : Word) : (∃ r ∈ rows, w &&& r.1 = r.2) ↔ ∃ r ∈ opcodeMap, r.admits w = true := by
  have hrows : rows = opcodeMap.map fun r => (r.mask, r.pattern) := rfl
  simp only [hrows, List.mem_map, exists_exists_and_eq_and, admits_iff]

theorem opcodeMap_masks : ∀ r ∈ opcodeMap, r.mask.extractLsb' 28 4 = 0xF#4 := by simp [opcodeMap]

/-- The opcodes of the rows, in the order of R84. -/
theorem opcodeMap_opcodes : (opcodeMap.map fun r => field r.pattern 28 4) = List.range 9 := by decide

theorem opcode_of_admits {r : OpRow} {w : Word} (hr : r ∈ opcodeMap) (h : r.admits w = true) :
    field w 28 4 = field r.pattern 28 4 :=
  field_of_row (opcodeMap_masks r hr) ((admits_iff r w).mp h)

theorem opcode_lt_of_admits {r : OpRow} {w : Word} (hr : r ∈ opcodeMap) (h : r.admits w = true) : field w 28 4 < 9 := by
  rw [opcode_of_admits hr h, ← List.mem_range, ← opcodeMap_opcodes]
  exact List.mem_map_of_mem hr

/-- A word belongs to at most one row. -/
theorem eq_of_admits {r r' : OpRow} {w : Word} (hr : r ∈ opcodeMap) (hr' : r' ∈ opcodeMap) (h : r.admits w = true)
    (h' : r'.admits w = true) : r = r' :=
  List.inj_on_of_nodup_map (opcodeMap_opcodes ▸ List.nodup_range) hr hr'
    ((opcode_of_admits hr h).symm.trans (opcode_of_admits hr' h'))

/-! ## What a word decodes to -/

theorem mem_and_admits_of_find {w : Word} {r : OpRow} (h : opcodeMap.find? (fun r => r.admits w) = some r) :
    r ∈ opcodeMap ∧ r.admits w = true :=
  ⟨List.mem_of_find?_eq_some h, List.find?_some (p := (OpRow.admits · w)) h⟩

theorem decode_eq_some_iff (w : Word) (i : Instr) :
    decode w = some i ↔ ∃ r ∈ opcodeMap, r.admits w = true ∧ r.read w = i := by
  rw [decode, Option.map_eq_some_iff]
  constructor
  · rintro ⟨r, hfind, hread⟩
    obtain ⟨hr, hadmits⟩ := mem_and_admits_of_find hfind
    exact ⟨r, hr, hadmits, hread⟩
  · rintro ⟨r, hr, hadmits, hread⟩
    obtain ⟨r', hfind⟩ := Option.isSome_iff_exists.mp (List.find?_isSome (p := (OpRow.admits · w)).mpr ⟨r, hr, hadmits⟩)
    obtain ⟨hr', hadmits'⟩ := mem_and_admits_of_find hfind
    cases eq_of_admits hr hr' hadmits hadmits'
    exact ⟨r, hfind, hread⟩

theorem decode_eq_none_iff (w : Word) : decode w = none ↔ ¬ ∃ r ∈ rows, w &&& r.1 = r.2 := by
  rw [exists_row_iff, decode, Option.map_eq_none_iff, List.find?_eq_none]
  simp only [not_exists, not_and]

/-- A word of the `n`-th row decodes to what the row reads. -/
theorem decode_of_row (n : Nat) {w m p : Word} {read : Word → Instr} (hn : opcodeMap[n]? = some ⟨p, m, read⟩)
    (h : w &&& m = p) : decode w = some (read w) :=
  (decode_eq_some_iff w _).mpr ⟨_, List.mem_of_getElem? hn, (admits_iff ⟨p, m, read⟩ w).mpr h, rfl⟩

/-- Settles O5: row by row. -/
theorem decodingFollowsTheOpcodeMap : Obligations.DecodingFollowsTheOpcodeMap := fun w =>
  ⟨decode_of_row 0 rfl, decode_of_row 1 rfl, decode_of_row 2 rfl, decode_of_row 3 rfl, decode_of_row 4 rfl,
    decode_of_row 5 rfl, decode_of_row 6 rfl, decode_of_row 7 rfl, decode_of_row 8 rfl,
    fun h => (decode_eq_none_iff w).mpr fun ⟨r, hr, hrow⟩ => h r hr hrow⟩

theorem step_of_sequencerTurn {s t : State} (h : SequencerTurn s t) : step s = sequencerStep t := by
  obtain ⟨hnil, rfl⟩ | ⟨ts, hts, rfl⟩ := h
  · exact step_of_nil hnil
  · exact step_of_sequencer hts

theorem sequencerStep_of_illegal {t : State} {w : Word} {rest : List Word} (hfault : t.fault = false)
    (hcq : t.cq = w :: rest) (hdecode : decode w = none) : sequencerStep t = .next (illegalCommand w t) := by
  have hfetch : fetchCommand t = some w := (fetchCommand_eq_some_iff t w).mpr ⟨hfault, rest, hcq⟩
  simp [sequencerStep, hfetch, hdecode]

theorem sequencerTurn_fault_cq {s t : State} (h : SequencerTurn s t) : t.fault = s.fault ∧ t.cq = s.cq := by
  obtain ⟨-, rfl⟩ | ⟨ts, -, rfl⟩ := h <;> exact ⟨rfl, rfl⟩

/-- Settles O3: a word of no row decodes to nothing, and the opcodes of the rows end at 8. -/
theorem illegalWordsRaiseIllegalCmd : Obligations.IllegalWordsRaiseIllegalCmd := by
  refine ⟨fun w => ?_, fun w hop hrow => ?_, fun s t w rest hturn hfault hcq hillegal => ?_⟩
  · rw [← not_iff_not, ← decode_eq_none_iff, ← Option.isSome_iff_exists, Option.not_isSome_iff_eq_none]
  · obtain ⟨r, hr, hadmits⟩ := (exists_row_iff w).mp hrow
    exact absurd (opcode_lt_of_admits hr hadmits) (Nat.not_lt.mpr hop)
  · obtain ⟨hf, hc⟩ := sequencerTurn_fault_cq hturn
    rw [step_of_sequencerTurn hturn,
      sequencerStep_of_illegal (hf.trans hfault) (hc.trans hcq) ((decode_eq_none_iff w).mpr hillegal)]
    rfl

/-! ## Encoding, then decoding -/

/-- Settles O6: the word belongs to its command's row, and each field gives its operand back, since it fits. -/
theorem decodeOfEncodeIsTheCommand : Obligations.DecodeOfEncodeIsTheCommand := by
  intro i hwf
  cases i with
  | nop => exact decode_of_row 0 rfl Laws.RowMatch.nop
  | clr => exact decode_of_row 1 rfl Laws.RowMatch.clr
  | ldb idx val =>
    simp only [Instr.wellFormed, Bool.and_eq_true, decide_eq_true_eq] at hwf
    obtain ⟨hidx, hval⟩ := hwf
    rw [decode_of_row 2 rfl (Laws.RowMatch.ldb idx val), encode, field_packAB_a, field_packAB_b, Nat.mod_eq_of_lt hidx,
      Nat.mod_eq_of_lt hval]
  | setk k =>
    rw [decode_of_row 3 rfl (Laws.RowMatch.setk k), encode, field_packAB_b, Nat.mod_eq_of_lt (of_decide_eq_true hwf)]
  | step => exact decode_of_row 4 rfl Laws.RowMatch.step
  | rdb idx =>
    rw [decode_of_row 5 rfl (Laws.RowMatch.rdb idx), encode, field_packAB_a, Nat.mod_eq_of_lt (of_decide_eq_true hwf)]
  | emit => exact decode_of_row 6 rfl Laws.RowMatch.emit
  | rsblk d k =>
    simp only [Instr.wellFormed, Bool.and_eq_true, decide_eq_true_eq] at hwf
    obtain ⟨hd, hk⟩ := hwf
    rw [decode_of_row 7 rfl (Laws.RowMatch.rsblk d k), encode, field_packAB_a, field_packAB_b, Nat.mod_eq_of_lt hd,
      Nat.mod_eq_of_lt hk]
  | fmt level mask =>
    simp only [Instr.wellFormed, Bool.and_eq_true, decide_eq_true_eq] at hwf
    obtain ⟨hlevel, hmask⟩ := hwf
    rw [decode_of_row 8 rfl (Laws.RowMatch.fmt level mask), encode, field_packF_level, field_packF_mask,
      Nat.mod_eq_of_lt hlevel, Nat.mod_eq_of_lt hmask]

/-- Settles O8: the examples fit their fields and encode to the words listed, so the words decode to them (O6). -/
theorem specEncodingExamplesDecode : Obligations.SpecEncodingExamplesDecode := by
  refine ⟨fun p hp => ?_, by decide, by decide, by decide⟩
  have hword : p.1.wellFormed = true ∧ encode p.1 = p.2 := by revert p; decide
  obtain ⟨hwf, hencode⟩ := hword
  exact ⟨hencode, hencode ▸ decodeOfEncodeIsTheCommand p.1 hwf⟩

/-! ## Decoding, then encoding -/

theorem wellFormed_read : ∀ r ∈ opcodeMap, ∀ w, (r.read w).wellFormed = true := by
  have ha (w : Word) : field w 16 8 < 256 := field_lt w 16 8
  have hb (w : Word) : field w 0 8 < 256 := field_lt w 0 8
  have hlevel (w : Word) : field w 3 2 < 4 := field_lt w 3 2
  have hmask (w : Word) : field w 0 3 < 8 := field_lt w 0 3
  simp [opcodeMap, Instr.wellFormed, ha, hb, hlevel, hmask]

theorem eq_of_full_mask {w p : Word} (h : w &&& 0xFFFFFFFF = p) : p = w := h.symm.trans BitVec.and_allOnes

/-- The operand fields of a row hold every bit that its mask leaves open. -/
theorem encode_read : ∀ r ∈ opcodeMap, ∀ w, w &&& r.mask = r.pattern → encode (r.read w) = w := by
  simp only [opcodeMap, List.forall_mem_cons]
  refine ⟨fun w h => ?_, fun w h => ?_, fun w h => ?_, fun w h => ?_, fun w h => ?_, fun w h => ?_, fun w h => ?_,
    fun w h => ?_, fun w h => ?_, fun _ hr => absurd hr List.not_mem_nil⟩
  · exact eq_of_full_mask h
  · exact eq_of_full_mask h
  · exact packAB_eq (field_of_row rfl h) (field_of_row rfl h) rfl (field_of_row rfl h) rfl
  · exact packAB_eq (field_of_row rfl h) (field_of_row rfl h) (field_of_row rfl h) (field_of_row rfl h) rfl
  · exact eq_of_full_mask h
  · exact packAB_eq (field_of_row rfl h) (field_of_row rfl h) rfl (field_of_row rfl h) (field_of_row rfl h)
  · exact eq_of_full_mask h
  · exact packAB_eq (field_of_row rfl h) (field_of_row rfl h) rfl (field_of_row rfl h) rfl
  · exact packF_eq (field_of_row rfl h) (field_of_row rfl h) rfl rfl

/-- Settles O7: the word belongs to the row it was read from. -/
theorem encodeOfDecodeIsTheWord : Obligations.EncodeOfDecodeIsTheWord := by
  intro w i h
  obtain ⟨r, hr, hadmits, rfl⟩ := (decode_eq_some_iff w i).mp h
  exact ⟨wellFormed_read r hr w, encode_read r hr w ((admits_iff r w).mp hadmits)⟩

/-! ## Assembling -/

theorem loadSequence_wellFormed {vs : List Nat} (hvs : ∀ v ∈ vs, v < 256) {place : Nat} (hplace : place + vs.length ≤ 256) :
    ∀ i ∈ loadSequence place vs, i.wellFormed = true := by
  induction vs generalizing place with
  | nil => exact fun _ hi => absurd hi List.not_mem_nil
  | cons v vs ih =>
    obtain ⟨hv, hrest⟩ := List.forall_mem_cons.mp hvs
    rw [List.length_cons] at hplace
    refine List.forall_mem_cons.mpr ⟨?_, ih hrest (by omega)⟩
    simp only [Instr.wellFormed, Bool.and_eq_true, decide_eq_true_eq]
    omega

theorem expand_wellFormed {line : AsmLine} (h : line.wellFormed = true) : ∀ i ∈ line.expand, i.wellFormed = true := by
  cases line with
  | command i => exact List.forall_mem_singleton.mpr h
  | stepn n => exact fun i hi => (List.eq_of_mem_replicate hi) ▸ rfl
  | ldseq vs =>
    simp only [AsmLine.wellFormed, Bool.and_eq_true, decide_eq_true_eq, List.all_eq_true] at h
    obtain ⟨hlength, hvs⟩ := h
    exact loadSequence_wellFormed hvs (by omega)
  | rsprim k vs =>
    simp only [AsmLine.wellFormed, Bool.and_eq_true, decide_eq_true_eq, List.all_eq_true] at h
    obtain ⟨⟨hk, hlength⟩, hvs⟩ := h
    have hload := loadSequence_wellFormed hvs (place := 0) (by omega)
    simp only [AsmLine.expand, List.mem_cons, List.mem_append, List.mem_replicate, List.not_mem_nil]
    rintro i (rfl | hi | rfl | ⟨-, rfl⟩ | rfl | hi)
    · rfl
    · exact hload i hi
    · exact decide_eq_true hk
    · rfl
    · rfl
    · exact hi.elim

theorem map_decode_map_encode {is : List Instr} (h : ∀ i ∈ is, i.wellFormed = true) :
    (is.map encode).map decode = is.map some := by
  rw [List.map_map]
  exact List.map_congr_left fun i hi => decodeOfEncodeIsTheCommand i (h i hi)

/-- Settles O9: every command of the expansion is well formed, so each word decodes to it (O6). -/
theorem assembledProgramsDecodeToTheirExpansion : Obligations.AssembledProgramsDecodeToTheirExpansion := by
  intro lines
  refine ⟨fun h => ⟨_, if_pos h, map_decode_map_encode fun i hi => ?_⟩, fun h => if_neg (by simp [h])⟩
  obtain ⟨line, hline, hi⟩ := List.mem_flatMap.mp hi
  exact expand_wellFormed (List.all_eq_true.mp h line hline) i hi

end Sys2Proof.Proofs
end

section
/-! PROOFS. The family 40_control.md: the sequencer's turn, holds, commands that are all or nothing, and NOP.

A hold reads neither CQ nor the host's own fields (`held_frame`), and a host step that lifts no hold changes nothing else
(`hostStep_lifts_or_keeps`); so a held command stays held until one of the four host steps of `LiftsHold`. -/

namespace Sys2Proof.Proofs

open Sys2Proof Sys2Proof.Machine Sys2Proof.Claims

/-! ## The sequencer's turn -/

/-- Settles O1: the turn leaves the fault flag and CQ, so the sequencer finds the head word there. -/
theorem stepRunsDecodedCommand : Obligations.StepRunsDecodedCommand := by
  intro s t w rest i hturn hfault hcq hdecode
  obtain ⟨hf, hc⟩ := sequencerTurn_fault_cq hturn
  rw [step_of_sequencerTurn hturn]
  exact sequencerStep_of_decode (hf.trans hfault) (hc.trans hcq) hdecode

theorem sequencerStep_of_noCommand {t : State} (h : t.fault = true ∨ t.cq = []) : sequencerStep t = .next t := by
  rw [sequencerStep, (fetchCommand_eq_none_iff t).mpr h]

/-- Settles O2: the sequencer finds no command. -/
theorem noSequencerStepWhileHaltedOrIdle : Obligations.NoSequencerStepWhileHaltedOrIdle := by
  intro s t hturn hidle
  obtain ⟨hf, hc⟩ := sequencerTurn_fault_cq hturn
  rw [step_of_sequencerTurn hturn]
  exact sequencerStep_of_noCommand (by rwa [hf, hc])

/-! ## NOP -/

/-- The rows of the opcode map stand in the order of their opcodes (30_encoding.md R84). -/
theorem opcode_of_row {n : Nat} {r : OpRow} (hn : opcodeMap[n]? = some r) : field r.pattern 28 4 = n := by
  have hopcode : (List.range 9)[n]? = some (field r.pattern 28 4) := by
    rw [← opcodeMap_opcodes, List.getElem?_map, hn, Option.map_some]
  obtain ⟨_, heq⟩ := List.getElem?_eq_some_iff.mp hopcode
  rw [← heq, List.getElem_range]

/-- The `n`-th row of the opcode map is the only one with opcode `n`, so it says all about the words with that opcode. -/
theorem rowOf_of_row (n : Nat) {m p : Word} {read : Word → Instr} (hn : opcodeMap[n]? = some ⟨p, m, read⟩) :
    RowOf n p m read := by
  refine ⟨fun w h => decode_of_row n hn h, fun w hop hrow => ?_⟩
  rw [decode_eq_none_iff, exists_row_iff]
  rintro ⟨r, hr, hadmits⟩
  have hopcode : field r.pattern 28 4 = field p 28 4 :=
    (opcode_of_admits hr hadmits).symm.trans (hop.trans (opcode_of_row hn).symm)
  have hsame : r = ⟨p, m, read⟩ :=
    List.inj_on_of_nodup_map (opcodeMap_opcodes ▸ List.nodup_range) hr (List.mem_of_getElem? hn) hopcode
  exact hrow ((admits_iff ⟨p, m, read⟩ w).mp (hsame ▸ hadmits))

/-- A command that passes its checks and is not held completes (R100). -/
theorem exec_completes {i : Instr} {s : State} (hpass : firstFault i s = none) (hfree : holdCondition i s = false) :
    exec i s = .next (effectOf i s.popCommand) :=
  (exec_eq_runCommand i s).trans (runCommand_completes hpass hfree)

/-- Settles O14: NOP fails no check and is never held, and it has no effect. -/
theorem nopLeavesTheQueueAndDoesNothing : Obligations.NopLeavesTheQueueAndDoesNothing :=
  ⟨rowOf_of_row 0 rfl, fun _ => exec_completes rfl rfl,
    fun s t hturn hfault => noSequencerStepWhileHaltedOrIdle s t hturn (.inl hfault)⟩

/-! ## All or nothing -/

/-- Settles O12: the three ends of `exec`; a command that completes leaves CQ and keeps the fault state. -/
theorem commandsAreAllOrNothing : Obligations.CommandsAreAllOrNothing := by
  intro i s w rest hcq
  simp only [noFault_iff, holdCondition_iff, faultsWith_iff]
  rcases exec_cases i s with ⟨f, hf, he⟩ | ⟨hpass, hhold, he⟩ | ⟨hpass, hfree, he⟩
  · rw [headWord_of_cons hcq] at he
    exact .inr (.inl ⟨_, _, ⟨f, hf, rfl, rfl⟩, he⟩)
  · exact .inl ⟨hpass, hhold, he⟩
  · obtain ⟨hqueue, hframe⟩ := effectOf_frame i s.popCommand
    rw [State.popCommand_cq, hcq, List.tail_cons] at hqueue
    exact .inr (.inr ⟨hpass, by simp [hfree], _, he, hqueue, hframe⟩)

/-! ## Holds -/

theorem exec_of_held {i : Instr} {s : State} (h : held i s = true) : exec i s = .next s := by
  obtain ⟨hpass, hhold⟩ := (held_iff i s).mp h
  rw [exec_eq_runCommand]
  exact runCommand_held ((noFault_iff i s).mp hpass) ((holdCondition_iff i s).mp hhold)

/-- A command that is not held leaves CQ, so the state is not the same after it. -/
theorem exec_eq_self_iff {i : Instr} {s : State} {w : Word} {rest : List Word} (hcq : s.cq = w :: rest)
    (hpass : NoFault i s) : exec i s = .next s ↔ HoldCondition i s := by
  refine ⟨fun h => ?_, fun hhold => exec_of_held ((held_iff i s).mpr ⟨hpass, hhold⟩)⟩
  rcases commandsAreAllOrNothing i s w rest hcq with ⟨-, hhold, -⟩ | ⟨code, info, hfault, -⟩ | ⟨-, -, t, he, hqueue, -⟩
  · exact hhold
  · exact absurd hfault (hpass code info)
  · cases he.symm.trans h
    exact absurd (hcq.symm.trans hqueue) (List.cons_ne_self w rest)

/-- The fault checks and the hold conditions read neither CQ nor the host's own fields (R101, R171). -/
theorem held_frame (i : Instr) (s : State) (cq : List Word) (turns : List Turn) (busData : Option Word) :
    held i { s with cq := cq, turns := turns, busData := busData } = held i s := by
  cases i <;> rfl

/-- The host steps that can lift a hold: a read of DOUT, a write of DIN, and the two reset causes (R101). -/
def LiftsHold (a : HostAction) : Prop :=
  a = .read (Config.rsbchBase + 0x08) 32 ∨ (∃ v, a = .write (Config.rsbchBase + 0x04) 32 v) ∨ a = .rst ∨
    a = .write (Config.rsbchBase + 0x28) 32 1

/-- No register stands at two offsets (R36). -/
theorem offset_unique {off off' : Nat} {r : HostReg} (h : hostRegAt off = some r) (h' : hostRegAt off' = some r) :
    off = off' := by
  have hall : ∀ a < 0x2C, ∀ b < 0x2C, (hostRegAt a).isSome → hostRegAt a = hostRegAt b → a = b := by decide
  obtain ⟨hlt, -⟩ := hostRegAt_offset h
  obtain ⟨hlt', -⟩ := hostRegAt_offset h'
  exact hall off hlt off' hlt' (by simp [h]) (h.trans h'.symm)

/-- An access that reaches a register is the 32-bit access at the register's offset (R36, R48). -/
theorem access_of_register {addr width off : Nat} {r : HostReg} (haccess : decodeAccess addr width = .inl r)
    (hreg : hostRegAt off = some r) : addr = Config.rsbchBase + off ∧ width = 32 := by
  obtain ⟨hwidth, off', -, -, haddr, hreg'⟩ := decodeAccess_register haccess
  exact ⟨offset_unique hreg' hreg ▸ haddr, hwidth⟩

/-- Of the words with bit 0 set, CTRL takes only 1 (R47). -/
theorem eq_one_of_writeCtrl {w : Word} {u t : State} (h : writeCtrl w u = .next t) (hbit : w.getLsbD 0 = true) : w = 1 := by
  have hlt : w.toNat < 2 := by
    by_contra hge
    rw [writeCtrl_of_reserved (not_lt.mp hge)] at h
    cases h
  have hodd : w.toNat % 2 = 1 := by simpa [BitVec.getLsbD] using hbit
  exact BitVec.eq_of_toNat_eq (show w.toNat = 1 by omega)

/-- A host step that cannot lift a hold at most adds a word to CQ and returns a value. -/
theorem hostStep_lifts_or_keeps {a : HostAction} {u t : State} (h : hostStep a u = .next t) :
    LiftsHold a ∨ ∃ ws busData, t = { u with cq := u.cq ++ ws, busData := busData } := by
  rcases hostStep_cases h with ⟨r, addr, width, rfl, haccess, hr⟩ | ⟨r, addr, width, w, rfl, haccess, hw⟩ | ⟨rfl, -⟩
  · rcases readReg_cases hr with ⟨v, rfl⟩ | ⟨b, rest, rfl, -, -⟩
    · exact .inr ⟨[], some v, by rw [List.append_nil]⟩
    · obtain ⟨rfl, rfl⟩ := access_of_register (off := 0x08) haccess rfl
      exact .inl (.inl rfl)
  · rcases writeReg_cases hw with ⟨-, -, rfl⟩ | ⟨rfl, -, -⟩ | ⟨rfl, hbit, -⟩ | ⟨-, -, rfl⟩
    · exact .inr ⟨[w], u.busData, rfl⟩
    · obtain ⟨rfl, rfl⟩ := access_of_register (off := 0x04) haccess rfl
      exact .inl (.inr (.inl ⟨w, rfl⟩))
    · obtain ⟨rfl, rfl⟩ := access_of_register (off := 0x28) haccess rfl
      cases eq_one_of_writeCtrl hw hbit
      exact .inl (.inr (.inr (.inr rfl)))
    · exact .inr ⟨[], t.busData, by rw [List.append_nil]⟩
  · exact .inl (.inr (.inr (.inl rfl)))

theorem sequencerTurn_held {s t : State} (h : SequencerTurn s t) (i : Instr) : held i t = held i s := by
  obtain ⟨-, rfl⟩ | ⟨ts, -, rfl⟩ := h
  · rfl
  · exact held_frame i s s.cq ts s.busData

/-- A held command on the sequencer's turn changes nothing (R101). -/
theorem step_of_held {s t : State} {i : Instr} {w : Word} {rest : List Word} (hturn : SequencerTurn s t)
    (hfault : s.fault = false) (hcq : s.cq = w :: rest) (hdecode : decode w = some i) (hheld : held i s = true) :
    step s = .next t :=
  (stepRunsDecodedCommand s t w rest i hturn hfault hcq hdecode).trans (exec_of_held ((sequencerTurn_held hturn i).trans hheld))

/-- While a command is held, a step that cannot lift the hold at most adds a word to CQ and returns a value. -/
theorem step_lifts_or_keeps {s t : State} {i : Instr} {w : Word} {rest : List Word} (hfault : s.fault = false)
    (hcq : s.cq = w :: rest) (hdecode : decode w = some i) (hheld : held i s = true) (hstep : step s = .next t) :
    (∃ a ts, s.turns = .host a :: ts ∧ LiftsHold a) ∨
      ∃ ws turns busData, t = { s with cq := s.cq ++ ws, turns := turns, busData := busData } := by
  rcases step_cases s with ⟨hturn, -⟩ | ⟨a, hturn, hs⟩
  · cases (step_of_held (sequencerTurn_nextTurn hturn) hfault hcq hdecode hheld).symm.trans hstep
    exact .inr ⟨[], s.turns.tail, s.busData, by rw [nextTurn_snd, List.append_nil]⟩
  · rcases hostStep_lifts_or_keeps (hs.symm.trans hstep) with hlifts | ⟨ws, busData, rfl⟩
    · obtain ⟨ts, hts, -⟩ := hostTurn_nextTurn hturn
      exact .inl ⟨a, ts, hts, hlifts⟩
    · exact .inr ⟨ws, s.turns.tail, busData, by rw [nextTurn_snd]⟩

/-- Settles O11: a command that is not held leaves CQ, and only the steps of `LiftsHold` change what a hold reads. -/
theorem commandsAreHeldExactlyOnTheirCondition : Obligations.CommandsAreHeldExactlyOnTheirCondition := by
  refine ⟨fun s i w rest hcq hpass => exec_eq_self_iff hcq hpass,
    fun s t i w rest hturn hfault hcq hdecode hpass hhold =>
      step_of_held hturn hfault hcq hdecode ((held_iff i s).mpr ⟨hpass, hhold⟩),
    fun s t i w rest hfault hcq hdecode hpass hhold hstep => ?_⟩
  have hheld : held i s = true := (held_iff i s).mpr ⟨hpass, hhold⟩
  rcases step_lifts_or_keeps hfault hcq hdecode hheld hstep with ⟨a, ts, hts, hlifts⟩ | ⟨ws, turns, busData, rfl⟩
  · rcases hlifts with rfl | ⟨v, rfl⟩ | rfl | rfl
    · exact .inr ⟨ts, .inl hts⟩
    · exact .inr ⟨ts, .inr (.inl ⟨v, hts⟩)⟩
    · exact .inr ⟨ts, .inr (.inr (.inl hts))⟩
    · exact .inr ⟨ts, .inr (.inr (.inr hts))⟩
  · exact .inl ⟨hfault, by simp [hcq], (held_iff i _).mp ((held_frame i s _ turns busData).trans hheld)⟩

end Sys2Proof.Proofs
end

section
/-! PROOFS. The family 41_reed_solomon.md: the commands of Reed–Solomon EC generation and the laws of the family.

Each command is one of the three ends of `exec`: fault entry (`exec_of_faultsWith`), held (`exec_of_holds`) or completed
(`exec_completes`).

The laws rest on one fact: a division step on a buffer without a `⊥` is a pass of long division by the generator polynomial on
the sequence of its bytes (`divStep_holdsCoeffs`). A pass is linear (R134), takes a multiple of the generator away (R132), and
writes nothing from place `k` on (R133). The runs of programs (R131, R140) then lead to buffers and EC bytes of that form. -/

namespace Sys2Proof.Proofs

open Sys2Proof Sys2Proof.Machine Sys2Proof.Claims

/-! ## The ends of a command -/

/-- A command that fails a check enters the fault it names (60_exceptions.md R172). -/
theorem exec_of_faultsWith {i : Instr} {s : State} {code info : Byte} {w : Word} {rest : List Word} (hcq : s.cq = w :: rest)
    (h : FaultsWith i s code info) : exec i s = .next (faultEntry code info w s) := by
  obtain ⟨f, hf, rfl, rfl⟩ := (faultsWith_iff i s code info).mp h
  rw [exec_eq_runCommand, runCommand_fault hf, headWord_of_cons hcq]
  rfl

/-- A command that passes its checks and is held changes nothing (40_control.md R101). -/
theorem exec_of_holds {i : Instr} {s : State} (hpass : firstFault i s = none) (hhold : holdCondition i s = true) :
    exec i s = .next s :=
  (exec_eq_runCommand i s).trans (runCommand_held hpass hhold)

theorem passes_step {s : State} (hkv : s.kv = true) (hcell : readWb s.wb 0 ≠ .poison) : firstFault .step s = none :=
  Option.or_eq_none_iff.mpr ⟨(checkKv_eq_none_iff s).mpr hkv, (checkCell_eq_none_iff 0 s).mpr hcell⟩

theorem passes_rdb {s : State} {idx : Nat} (hidx : idx < 123) (hcell : readWb s.wb idx ≠ .poison) :
    firstFault (.rdb idx) s = none :=
  Option.or_eq_none_iff.mpr ⟨(checkIndex_eq_none_iff idx).mpr hidx, (checkCell_eq_none_iff idx s).mpr hcell⟩

theorem passes_emit {s : State} (hkv : s.kv = true) (hcells : ∀ m, m < s.kr.toNat → readWb s.wb m ≠ .poison) :
    firstFault .emit s = none :=
  Option.or_eq_none_iff.mpr ⟨(checkKv_eq_none_iff s).mpr hkv, (checkCells_eq_none_iff s.kr.toNat s).mpr hcells⟩

theorem passes_rsblk {s : State} {d k : Nat} (hd : d ≤ 123) (hk : k ∈ s.genRom.kSet) : firstFault (.rsblk d k) s = none :=
  Option.or_eq_none_iff.mpr ⟨(checkD_eq_none_iff d).mpr hd, (checkK_eq_none_iff k s).mpr hk⟩

theorem byte_ne_poison {c : WbCell} {b : Byte} (h : c = .byte b) : c ≠ .poison := by simp [h]

/-- With the value of K_SET in KR and KV = 1, STATUS.K shows it (10_state.md R40). -/
theorem statusWord_k_of_mem {t : State} {k : Nat} (hwf : t.genRom.wf = true) (hk : k ∈ t.genRom.kSet) (hkv : t.kv = true)
    (hkr : t.kr = BitVec.ofNat 8 k) : ((statusWord t).extractLsb' 16 8).toNat = k := by
  rw [statusWord_k, statusK, if_pos hkv, hkr, toNat_ofNat_of_mem_kSet hwf hk]

/-! ## CLR, LDB, SETK, STEP -/

/-- Settles O15: CLR fails no check and is never held. -/
theorem clrZeroesTheBuffer : Obligations.ClrZeroesTheBuffer :=
  ⟨rowOf_of_row 1 rfl, fun _ => ⟨_, exec_completes rfl rfl, rfl, fun i hi => (readWb_zeroWb i).trans (if_pos hi)⟩⟩

/-- Settles O16: the cell is written, or the index is refused. -/
theorem ldbWritesOneCell : Obligations.LdbWritesOneCell := by
  refine ⟨rowOf_of_row 2 rfl, fun s idx val hidx => ?_, fun s w rest idx val hcq hidx =>
    exec_of_faultsWith hcq ⟨hidx, rfl, rfl⟩⟩
  refine ⟨_, exec_completes ((checkIndex_eq_none_iff idx).mpr hidx) rfl, rfl, ?_, fun j hj => ?_⟩
  · exact (readWb_writeWb s.wb idx idx _).trans (if_pos ⟨rfl, hidx⟩)
  · exact (readWb_writeWb s.wb idx j _).trans (if_neg fun ⟨h, _⟩ => hj h.symm)

/-- Settles O17: KR takes a value of K_SET, or the value is refused. -/
theorem setkSelectsTheEcWordCount : Obligations.SetkSelectsTheEcWordCount := by
  refine ⟨rowOf_of_row 3 rfl, fun s k hwf hk => ?_, fun s w rest k hcq hk => exec_of_faultsWith hcq ⟨hk, rfl, rfl⟩⟩
  exact ⟨_, exec_completes ((checkK_eq_none_iff k s).mpr hk) rfl, rfl, statusWord_k_of_mem hwf hk rfl rfl⟩

/-- Settles O18: the division step runs, or one of the two checks fails. -/
theorem stepIsOneDivisionStep : Obligations.StepIsOneDivisionStep :=
  ⟨rowOf_of_row 4 rfl, fun _ hkv hcell => exec_completes (passes_step hkv hcell) rfl,
    fun _ _ _ hcq hkv => exec_of_faultsWith hcq (.inl ⟨hkv, rfl, rfl⟩),
    fun _ _ _ hcq hkv hcell => exec_of_faultsWith hcq (.inr ⟨hkv, hcell, rfl, rfl⟩)⟩

/-! ## RDB, EMIT -/

theorem execRdb_completes {s : State} {idx : Nat} {b : Byte} (hidx : idx < 123) (hcell : readWb s.wb idx = .byte b)
    (hroom : s.dout.length + 1 ≤ Config.doutDepth) :
    exec (.rdb idx) s = .next { s with cq := s.cq.tail, dout := s.dout ++ [b] } := by
  rw [exec_completes (passes_rdb hidx (byte_ne_poison hcell)) (decide_eq_false (Nat.not_lt.mpr hroom))]
  simp [effectOf, State.pushDout, State.popCommand, hcell, WbCell.byte?]

/-- Settles O20: the byte goes out, or RDB is held, or one of the two checks fails. -/
theorem rdbSendsOneCell : Obligations.RdbSendsOneCell :=
  ⟨rowOf_of_row 5 rfl, fun _ _ _ => execRdb_completes,
    fun _ _ _ hidx hcell hfull => exec_of_holds (passes_rdb hidx (byte_ne_poison hcell)) (decide_eq_true hfull),
    fun _ _ _ _ hcq hidx => exec_of_faultsWith hcq (.inl ⟨hidx, rfl, rfl⟩),
    fun _ _ _ _ hcq hidx hcell => exec_of_faultsWith hcq (.inr ⟨hidx, hcell, rfl, rfl⟩)⟩

/-- The bytes sent are any list that agrees with the first cells. -/
theorem wbBytes_eq_of_getD {wb : Wb} {out : List Byte} (h : ∀ m, m < out.length → readWb wb m = .byte (out.getD m 0)) :
    wbBytes out.length wb = out := by
  rw [wbBytes_eq_map h]
  exact List.ext_getElem (by simp) fun m _ hm => by simp [hm]

theorem execEmit_completes {s : State} {out : List Byte} (hkv : s.kv = true) (hlength : out.length = s.kr.toNat)
    (hcells : ∀ m, m < s.kr.toNat → readWb s.wb m = .byte (out.getD m 0))
    (hroom : s.dout.length + s.kr.toNat ≤ Config.doutDepth) :
    exec .emit s = .next { s with cq := s.cq.tail, dout := s.dout ++ out } := by
  have hsent : wbBytes s.kr.toNat s.wb = out := hlength ▸ wbBytes_eq_of_getD (hlength ▸ hcells)
  rw [exec_completes (passes_emit hkv fun m hm => byte_ne_poison (hcells m hm)) (decide_eq_false (Nat.not_lt.mpr hroom))]
  simp [effectOf, State.pushDout, State.popCommand, hsent]

/-- Settles O21: the bytes go out, or EMIT is held, or one of the two checks fails. -/
theorem emitSendsTheEcCodewords : Obligations.EmitSendsTheEcCodewords :=
  ⟨rowOf_of_row 6 rfl, fun _ _ => execEmit_completes,
    fun _ hkv hcells hfull => exec_of_holds (passes_emit hkv hcells) (decide_eq_true hfull),
    fun _ _ _ hcq hkv => exec_of_faultsWith hcq (.inl ⟨hkv, rfl, rfl⟩),
    fun _ _ _ m hcq hkv hm hcell hfirst => exec_of_faultsWith hcq (.inr ⟨hkv, rfl, m, hm, hcell, hfirst, rfl⟩)⟩

/-! ## RSBLK -/

/-- The bytes sent from a buffer without a `⊥`. -/
theorem wbBytes_of_defined {wb : Wb} (h : wb.Defined) {k : Nat} (hk : k ≤ 123) :
    (wbBytes k wb).length = k ∧ ∀ m, m < k → readWb wb m = .byte ((wbBytes k wb).getD m 0) := by
  choose! f hf using h
  have hsent : wbBytes k wb = (List.range k).map f := wbBytes_eq_map fun m hm => hf m (by omega)
  refine ⟨by simp [hsent], fun m hm => ?_⟩
  rw [hf m (by omega), hsent]
  simp [hm]

theorem free_rsblk {s : State} {d k : Nat} (hdin : d ≤ s.din.length) (hroom : s.dout.length + k ≤ Config.doutDepth) :
    holdCondition (.rsblk d k) s = false := by
  simp [holdCondition, hdin, hroom]

theorem execRsblk_completes {s : State} {d k : Nat} (hd : d ≤ 123) (hk : k ∈ s.genRom.kSet) (hdin : d ≤ s.din.length)
    (hroom : s.dout.length + k ≤ Config.doutDepth) : exec (.rsblk d k) s = .next (rsblkEffect d k s.popCommand) :=
  exec_completes (passes_rsblk hd hk) (free_rsblk hdin hroom)

theorem execRsblk_holds {s : State} {d k : Nat} (hd : d ≤ 123) (hk : k ∈ s.genRom.kSet)
    (hhold : s.din.length < d ∨ s.dout.length + k > Config.doutDepth) : exec (.rsblk d k) s = .next s :=
  exec_of_holds (passes_rsblk hd hk) (by simpa [holdCondition] using hhold)

theorem rsblk_wellFormed {rom : GenRom} (hwf : rom.wf = true) {d k : Nat} (hd : d ≤ 123) (hk : k ∈ rom.kSet) :
    (Instr.rsblk d k).wellFormed = true := by
  obtain ⟨-, hle⟩ := GenRom.kSet_bounds hwf hk
  simp only [Instr.wellFormed, Bool.and_eq_true, decide_eq_true_eq]
  omega

theorem readWb_loadWb_take (din : List Byte) (d : Nat) {i : Nat} (hi : i < 123) :
    readWb (loadWb (din.take d)) i = .byte (if i < d then din.getD i 0 else 0) := by
  rw [readWb_loadWb _ _ hi]
  by_cases hid : i < d <;> simp [hid]

/-- Settles O22: the block runs, or RSBLK is held, or one of the two checks fails. -/
theorem rsblkGeneratesOneBlock : Obligations.RsblkGeneratesOneBlock := by
  refine ⟨rowOf_of_row 7 rfl, fun s d k hwf hd hk hdin hroom => ?_, fun s d k => execRsblk_holds,
    fun s w rest d k hcq hd => exec_of_faultsWith hcq (.inl ⟨hd, rfl, rfl⟩),
    fun s w rest d k hcq hd hk => exec_of_faultsWith hcq (.inr ⟨hd, hk, rfl, rfl⟩)⟩
  obtain ⟨-, hle⟩ := GenRom.kSet_bounds hwf hk
  obtain ⟨hlength, hcells⟩ := wbBytes_of_defined (blockWb_defined s.genRom k (s.din.take d)) hle
  have hsteps : (s.din.take d).length = d := List.length_take_of_le hdin
  refine ⟨_, loadWb (s.din.take d), _, execRsblk_completes hd hk hdin hroom, rfl,
    fun i hi => readWb_loadWb_take s.din d hi, ?_, hlength, hcells, statusWord_k_of_mem hwf hk rfl rfl⟩
  rw [rsblkEffect_wb, blockWb, State.popCommand_din, hsteps, State.popCommand_genRom]

/-! ## The division step -/

/-- The first cells of a division step with a lead that is not 0 (R114). -/
theorem readWb_divStep_of_gen {rom : GenRom} {k e m g : Nat} {wb : Wb} {lead : Byte} (h : readWb wb 0 = .byte lead)
    (he : log lead = some e) (hm : m < 123) (hg : rom.gen k m = some g) :
    readWb (divStep rom k wb) m = (readWb (shiftWb wb) m).xor (.byte (alog (g + e))) := by
  rw [divStep_of_log h he, readWb_xorGenerator rom k e (shiftWb wb) m hm, hg]

/-- The cells of a division step that the generator does not reach (R114). -/
theorem readWb_divStep_of_gen_none {rom : GenRom} {k e i : Nat} {wb : Wb} {lead : Byte} (h : readWb wb 0 = .byte lead)
    (he : log lead = some e) (hi : i < 123) (hg : rom.gen k i = none) :
    readWb (divStep rom k wb) i = readWb (shiftWb wb) i := by
  rw [divStep_of_log h he, readWb_xorGenerator rom k e (shiftWb wb) i hi, hg]

/-- Settles O19: the two arms of `divStep`, the second by whether the generator reaches the cell. -/
theorem divisionStepShiftsThenXorsTheGenerator : Obligations.DivisionStepShiftsThenXorsTheGenerator := by
  intro rom k wb lead hwf hk hlead shifted
  refine ⟨?_, fun hne => ?_⟩
  · rintro rfl i -
    rw [divStep_of_zero hlead]
    exact readWb_shiftWb wb i
  · obtain ⟨-, hle⟩ := GenRom.kSet_bounds hwf hk
    obtain ⟨e, he⟩ := Option.ne_none_iff_exists'.mp (mt (log_eq_none_iff lead).mp hne)
    refine ⟨e, he, fun m hm => ?_, fun i hki hi => ?_⟩
    · obtain ⟨g, -, hg⟩ := (lt_iff_gen_eq_some hwf hk m).mp hm
      refine ⟨g, hg, ?_⟩
      rw [readWb_divStep_of_gen hlead he (by omega) hg, readWb_shiftWb, alog_mod]
    · rw [readWb_divStep_of_gen_none hlead he hi ((GenRom.gen_eq_none_iff hwf hk i).mpr hki)]
      exact readWb_shiftWb wb i

/-! ## Field arithmetic (R111, R113) -/

theorem gfmul_comm (a b : Byte) : gfmul a b = gfmul b a := by
  cases ha : log a <;> cases hb : log b <;> simp [gfmul, ha, hb, Nat.add_comm]

theorem gfmul_xor_left (a b c : Byte) : gfmul (a ^^^ b) c = gfmul a c ^^^ gfmul b c := by
  simp only [gfmul_eq_polyMul, polyMul_xor_left]

theorem gfmul_xor_right (a b c : Byte) : gfmul a (b ^^^ c) = gfmul a b ^^^ gfmul a c := by
  simp only [gfmul_comm a, gfmul_xor_left]

theorem gfmul_one_right (a : Byte) : gfmul a 1 = a := by
  rw [gfmul_comm, gfmul_eq_polyMul, polyMul_one_left]

theorem gfmul_alog (i j : Nat) : gfmul (alog i) (alog j) = alog (i + j) := by
  rw [gfmul_eq_polyMul, polyMul_alog]

theorem gfmul_assoc (a b c : Byte) : gfmul (gfmul a b) c = gfmul a (gfmul b c) := by
  cases ha : log a with
  | none => simp only [(log_eq_none_iff a).mp ha, gfmul_zero_left]
  | some i =>
    cases hb : log b with
    | none => simp only [(log_eq_none_iff b).mp hb, gfmul_zero_left, gfmul_zero_right]
    | some j =>
      cases hc : log c with
      | none => simp only [(log_eq_none_iff c).mp hc, gfmul_zero_right]
      | some l => simp only [← alog_log ha, ← alog_log hb, ← alog_log hc, gfmul_alog, Nat.add_assoc]

/-! ## Polynomials as sequences of coefficients

A polynomial is the sequence of its coefficients, highest first, and 0 past the last. The division step on the bytes of WB is
then one pass of long division: it takes the leading coefficient times the generator away and drops the leading place. -/

/-- The polynomial of a list of bytes. -/
def coeffs (p : List Byte) : Nat → Byte := fun n => p.getD n 0

/-- The generator polynomial of row `k` (10_state.md R29). -/
def genCoeff (rom : GenRom) (k : Nat) : Nat → Byte := coeffs (romGenerator rom k)

/-- One pass of long division by the generator polynomial (R114, R132). -/
def divCoeffs (rom : GenRom) (k : Nat) (f : Nat → Byte) : Nat → Byte := fun n =>
  f (n + 1) ^^^ gfmul (f 0) (genCoeff rom k (n + 1))

/-- The coefficients after one pass of long division for each data byte. -/
def remainder (rom : GenRom) (k : Nat) (data : List Byte) : Nat → Byte := (divCoeffs rom k)^[data.length] (coeffs data)

theorem genCoeff_zero (rom : GenRom) (k : Nat) : genCoeff rom k 0 = 1 := rfl

theorem genCoeff_succ (rom : GenRom) (k m : Nat) : genCoeff rom k (m + 1) = ((rom.gen k m).map alog).getD 0 := by
  simp [genCoeff, coeffs, romGenerator, GenRom.gen]

theorem genCoeff_of_gt {rom : GenRom} (hwf : rom.wf = true) {k : Nat} (hk : k ∈ rom.kSet) {n : Nat} (hn : k < n) :
    genCoeff rom k n = 0 := by
  obtain ⟨m, rfl⟩ := Nat.exists_eq_add_of_lt hn
  rw [genCoeff_succ, (GenRom.gen_eq_none_iff hwf hk (k + m)).mpr (Nat.le_add_right k m)]
  rfl

theorem divCoeffs_of_lead_zero {rom : GenRom} {k : Nat} {f : Nat → Byte} (h : f 0 = 0) (n : Nat) :
    divCoeffs rom k f n = f (n + 1) := by
  rw [divCoeffs, h, gfmul_zero_left]
  exact BitVec.xor_zero

theorem divCoeffs_of_coeff_zero {rom : GenRom} {k n : Nat} (h : genCoeff rom k (n + 1) = 0) (f : Nat → Byte) :
    divCoeffs rom k f n = f (n + 1) := by
  rw [divCoeffs, h, gfmul_zero_right]
  exact BitVec.xor_zero

theorem coeffs_of_ge {data : List Byte} {n : Nat} (h : data.length ≤ n) : coeffs data n = 0 := by
  simp [coeffs, h]

/-! ### The buffer holds the coefficients -/

/-- The cells of WB are the coefficients of `f`, which has none past them. -/
def HoldsCoeffs (wb : Wb) (f : Nat → Byte) : Prop :=
  (∀ i, i < 123 → readWb wb i = .byte (f i)) ∧ ∀ i, 123 ≤ i → f i = 0

theorem loadWb_holdsCoeffs {data : List Byte} (h : data.length ≤ 123) : HoldsCoeffs (loadWb data) (coeffs data) :=
  ⟨fun i hi => readWb_loadWb data i hi, fun _ hi => coeffs_of_ge (h.trans hi)⟩

theorem shiftWb_holdsCoeffs {wb : Wb} {f : Nat → Byte} (h : HoldsCoeffs wb f) :
    HoldsCoeffs (shiftWb wb) fun n => f (n + 1) := by
  obtain ⟨hcells, hpast⟩ := h
  refine ⟨fun i hi => ?_, fun i hi => hpast (i + 1) (by omega)⟩
  rw [readWb_shiftWb]
  split
  next hlast => exact congrArg WbCell.byte (hpast (i + 1) (by omega)).symm
  next hlast => exact hcells (i + 1) (by omega)

/-- A division step on WB is one pass of long division on its coefficients. -/
theorem divStep_holdsCoeffs {rom : GenRom} (hwf : rom.wf = true) {k : Nat} (hk : k ∈ rom.kSet) {wb : Wb} {f : Nat → Byte}
    (h : HoldsCoeffs wb f) : HoldsCoeffs (divStep rom k wb) (divCoeffs rom k f) := by
  obtain ⟨-, hle⟩ := GenRom.kSet_bounds hwf hk
  obtain ⟨hshift, hpast⟩ := shiftWb_holdsCoeffs h
  obtain ⟨hcells, -⟩ := h
  have hlead : readWb wb 0 = .byte (f 0) := hcells 0 (by decide)
  refine ⟨fun i hi => ?_, fun i hi => ?_⟩
  · cases he : log (f 0) with
    | none =>
      have hzero : f 0 = 0 := (log_eq_none_iff (f 0)).mp he
      rw [divStep_of_zero (hzero ▸ hlead), hshift i hi, divCoeffs_of_lead_zero hzero]
    | some e =>
      cases hg : rom.gen k i with
      | none =>
        have hcoeff : genCoeff rom k (i + 1) = 0 := by rw [genCoeff_succ, hg]; rfl
        rw [readWb_divStep_of_gen_none hlead he hi hg, hshift i hi, divCoeffs_of_coeff_zero hcoeff]
      | some g =>
        have hproduct : gfmul (f 0) (alog g) = alog (g + e) := by rw [← alog_log he, gfmul_alog, Nat.add_comm]
        rw [readWb_divStep_of_gen hlead he hi hg, hshift i hi]
        simp [divCoeffs, genCoeff_succ, hg, hproduct]
  · exact (divCoeffs_of_coeff_zero (genCoeff_of_gt hwf hk (by omega)) f).trans (hpast i hi)

theorem divSteps_holdsCoeffs {rom : GenRom} (hwf : rom.wf = true) {k : Nat} (hk : k ∈ rom.kSet) (n : Nat) {wb : Wb}
    {f : Nat → Byte} (h : HoldsCoeffs wb f) : HoldsCoeffs ((divStep rom k)^[n] wb) ((divCoeffs rom k)^[n] f) := by
  induction n generalizing wb f with
  | zero => exact h
  | succ n ih => exact ih (divStep_holdsCoeffs hwf hk h)

/-- After a block WB holds the remainder. -/
theorem blockWb_holdsCoeffs {rom : GenRom} (hwf : rom.wf = true) {k : Nat} (hk : k ∈ rom.kSet) {data : List Byte}
    (h : data.length ≤ 123) : HoldsCoeffs (blockWb rom k data) (remainder rom k data) :=
  divSteps_holdsCoeffs hwf hk data.length (loadWb_holdsCoeffs h)

/-! ### The EC bytes of a block -/

/-- The EC bytes of a block: the first `k` coefficients of the remainder. -/
def blockEc (rom : GenRom) (k : Nat) (data : List Byte) : List Byte := (List.range k).map (remainder rom k data)

@[simp] theorem blockEc_length (rom : GenRom) (k : Nat) (data : List Byte) : (blockEc rom k data).length = k := by
  simp [blockEc]

theorem wbBytes_blockWb {rom : GenRom} (hwf : rom.wf = true) {k : Nat} (hk : k ∈ rom.kSet) {data : List Byte}
    (h : data.length ≤ 123) : wbBytes k (blockWb rom k data) = blockEc rom k data := by
  obtain ⟨-, hle⟩ := GenRom.kSet_bounds hwf hk
  obtain ⟨hcells, -⟩ := blockWb_holdsCoeffs hwf hk h
  exact wbBytes_eq_map fun m hm => hcells m (by omega)

/-- RSBLK sends `blockEc`, from every state (R130). -/
theorem ecBytes_blockEc {rom : GenRom} (hwf : rom.wf = true) {k : Nat} (hk : k ∈ rom.kSet) {data : List Byte} {d : Nat}
    (hlength : data.length = d) (hd : d ≤ 123) : EcBytes rom d k data (blockEc rom k data) := by
  rintro s rfl hdin rfl hroom
  exact ⟨_, execRsblk_completes hd hk hdin hroom, congrArg (s.dout ++ ·) (wbBytes_blockWb hwf hk (hlength.trans_le hd))⟩

/-! ## Linearity (R134) -/

theorem divCoeffs_xor (rom : GenRom) (k : Nat) (f g : Nat → Byte) :
    divCoeffs rom k (fun n => f n ^^^ g n) = fun n => divCoeffs rom k f n ^^^ divCoeffs rom k g n := by
  funext n
  simp only [divCoeffs, gfmul_xor_left]
  ac_rfl

theorem divCoeffs_iterate_xor (rom : GenRom) (k n : Nat) (f g : Nat → Byte) :
    (divCoeffs rom k)^[n] (fun i => f i ^^^ g i) = fun i => (divCoeffs rom k)^[n] f i ^^^ (divCoeffs rom k)^[n] g i := by
  induction n generalizing f g with
  | zero => rfl
  | succ n ih => simp only [Function.iterate_succ_apply, divCoeffs_xor, ih]

theorem divCoeffs_zero (rom : GenRom) (k : Nat) : divCoeffs rom k (fun _ => 0) = fun _ => 0 :=
  funext (divCoeffs_of_lead_zero rfl)

theorem coeffs_zipWith {a b : List Byte} (h : a.length = b.length) :
    coeffs (List.zipWith (· ^^^ ·) a b) = fun n => coeffs a n ^^^ coeffs b n := by
  funext n
  by_cases hn : n < b.length
  · simp [coeffs, h, hn]
  · simp [coeffs, h, hn]

theorem coeffs_replicate_zero (d : Nat) : coeffs (List.replicate d 0) = fun _ => 0 := by
  funext n
  by_cases hn : n < d <;> simp [coeffs, hn]

theorem blockEc_zipWith (rom : GenRom) (k : Nat) {a b : List Byte} (h : a.length = b.length) :
    blockEc rom k (List.zipWith (· ^^^ ·) a b) = List.zipWith (· ^^^ ·) (blockEc rom k a) (blockEc rom k b) := by
  have hlength : (List.zipWith (· ^^^ ·) a b).length = b.length := by simp [h]
  simp only [blockEc, remainder, hlength, h, coeffs_zipWith h, divCoeffs_iterate_xor, List.zipWith_map, List.zipWith_self]

theorem blockEc_replicate_zero (rom : GenRom) (k d : Nat) :
    blockEc rom k (List.replicate d 0) = List.replicate k 0 := by
  rw [blockEc, remainder, coeffs_replicate_zero, Function.iterate_fixed (divCoeffs_zero rom k)]
  simp

/-- Settles O48: a pass of long division is linear in the coefficients, and so are `d` of them. -/
theorem ecBytesAreLinear : Obligations.EcBytesAreLinear := by
  refine ⟨fun rom d k a b hwf hd hk ha hb => ?_, fun rom d k hwf hd hk => ?_⟩
  · refine ⟨blockEc rom k a, blockEc rom k b, by simp, by simp, ecBytes_blockEc hwf hk ha hd, ecBytes_blockEc hwf hk hb hd, ?_⟩
    rw [← blockEc_zipWith rom k (ha.trans hb.symm)]
    exact ecBytes_blockEc hwf hk (by simp [ha, hb]) hd
  · rw [← blockEc_replicate_zero rom k d]
    exact ecBytes_blockEc hwf hk List.length_replicate hd

/-! ## The quotient and the remainder (R132) -/

/-- The quotient's coefficient `n`: the leading coefficient that pass `n` takes away. -/
def quotientCoeff (rom : GenRom) (k : Nat) (f : Nat → Byte) (n : Nat) : Byte := (divCoeffs rom k)^[n] f 0

/-- What a pass takes away, added back. -/
theorem coeff_succ_eq (rom : GenRom) (k : Nat) (f : Nat → Byte) (n : Nat) :
    f (n + 1) = gfmul (f 0) (genCoeff rom k (n + 1)) ^^^ divCoeffs rom k f n := by
  rw [divCoeffs, BitVec.xor_comm (f (n + 1)), ← BitVec.xor_assoc, BitVec.xor_self, BitVec.zero_xor]

/-- After `j` passes: what they took away and what is left make up the dividend. -/
theorem coeff_eq_sum_xor_rest (rom : GenRom) (k : Nat) (f : Nat → Byte) (j m : Nat) :
    f (j + m) = xorSum j (fun i => gfmul (quotientCoeff rom k f i) (genCoeff rom k (j + m - i))) ^^^
      (divCoeffs rom k)^[j] f m := by
  induction j generalizing m with
  | zero => simp
  | succ j ih =>
    have hplace : j + 1 + m = j + (m + 1) := by omega
    have hlast : j + (m + 1) - j = m + 1 := by omega
    rw [xorSum_succ, hplace, hlast, ih (m + 1), coeff_succ_eq rom k ((divCoeffs rom k)^[j] f) m,
      ← Function.iterate_succ_apply' (divCoeffs rom k), BitVec.xor_assoc]
    rfl

/-- Place `n` of the dividend, from the passes up to the one that takes it away. -/
theorem coeff_eq_sum (rom : GenRom) (k : Nat) (f : Nat → Byte) (n : Nat) :
    f n = xorSum (n + 1) fun i => gfmul (quotientCoeff rom k f i) (genCoeff rom k (n - i)) := by
  have hrest := coeff_eq_sum_xor_rest rom k f n 0
  rw [Nat.add_zero] at hrest
  rw [xorSum_succ, Nat.sub_self, genCoeff_zero, gfmul_one_right]
  exact hrest

/-- The quotient: a coefficient for each data byte. -/
def quotient (rom : GenRom) (k : Nat) (data : List Byte) : List Byte :=
  (List.range data.length).map (quotientCoeff rom k (coeffs data))

theorem quotient_getD_of_lt {rom : GenRom} {k i : Nat} {data : List Byte} (h : i < data.length) :
    (quotient rom k data).getD i 0 = quotientCoeff rom k (coeffs data) i := by
  simp [quotient, h]

theorem quotient_getD_of_ge {rom : GenRom} {k i : Nat} {data : List Byte} (h : data.length ≤ i) :
    (quotient rom k data).getD i 0 = 0 := by
  simp [quotient, h]

theorem xorSum_congr {n : Nat} {f g : Nat → Byte} (h : ∀ i, i < n → f i = g i) : xorSum n f = xorSum n g := by
  induction n with
  | zero => rfl
  | succ n ih => rw [xorSum_succ, xorSum_succ, ih fun i hi => h i (by omega), h n (by omega)]

/-- A sum ends where its terms are 0 from there on. -/
theorem xorSum_add_of_zero {d : Nat} {f : Nat → Byte} (h : ∀ i, d ≤ i → f i = 0) (n : Nat) :
    xorSum (d + n) f = xorSum d f := by
  induction n with
  | zero => rfl
  | succ n ih => rw [← Nat.add_assoc, xorSum_succ, ih, h (d + n) (by omega)]; simp

theorem productCoeff_quotient_of_lt {rom : GenRom} {k n : Nat} {data : List Byte} (h : n < data.length) :
    productCoeff (quotient rom k data) (romGenerator rom k) n = coeffs data n := by
  rw [coeff_eq_sum rom k (coeffs data) n]
  exact xorSum_congr fun i hi => by rw [quotient_getD_of_lt (by omega)]; rfl

theorem productCoeff_quotient_of_ge {rom : GenRom} {k : Nat} {data : List Byte} (m : Nat) :
    productCoeff (quotient rom k data) (romGenerator rom k) (data.length + m) = remainder rom k data m := by
  have hdividend := coeff_eq_sum_xor_rest rom k (coeffs data) data.length m
  rw [coeffs_of_ge (Nat.le_add_right data.length m)] at hdividend
  rw [remainder, ← BitVec.xor_eq_zero_iff.mp hdividend.symm, productCoeff, Nat.add_assoc,
    xorSum_add_of_zero fun i hi => by rw [quotient_getD_of_ge hi, gfmul_zero_left]]
  exact xorSum_congr fun i hi => by rw [quotient_getD_of_lt hi]; rfl

theorem append_getD_of_lt {data ec : List Byte} {n : Nat} (h : n < data.length) : (data ++ ec).getD n 0 = coeffs data n := by
  rw [coeffs, List.getD_append _ _ _ _ h]

theorem append_blockEc_getD {rom : GenRom} {k m : Nat} {data : List Byte} (h : m < k) :
    (data ++ blockEc rom k data).getD (data.length + m) 0 = remainder rom k data m := by
  rw [List.getD_append_right _ _ _ _ (Nat.le_add_right _ _), Nat.add_sub_cancel_left]
  simp [blockEc, h]

/-- Settles O49: the dividend's places below `d` are those of the product, and its 0 at each later place is the product's
coefficient with the remainder's. -/
theorem ecBytesAreTheDivisionRemainder : Obligations.EcBytesAreTheDivisionRemainder := by
  intro rom d k data hwf hd hk hlength
  refine ⟨blockEc rom k data, quotient rom k data, blockEc_length rom k data, by simp [quotient, hlength],
    ecBytes_blockEc hwf hk hlength hd, fun n hn => ?_⟩
  subst hlength
  by_cases hplace : n < data.length
  · rw [append_getD_of_lt hplace, productCoeff_quotient_of_lt hplace]
  · obtain ⟨m, rfl⟩ := Nat.exists_eq_add_of_le (not_lt.mp hplace)
    rw [append_blockEc_getD (by omega), productCoeff_quotient_of_ge]

/-! ## Values of polynomials -/

/-- One step of Horner's rule. -/
theorem evalPoly_concat (x : Byte) (p : List Byte) (c : Byte) : evalPoly x (p ++ [c]) = gfmul (evalPoly x p) x ^^^ c := by
  simp [evalPoly]

theorem evalPoly_zipWith (x : Byte) {p q : List Byte} (h : p.length = q.length) :
    evalPoly x (List.zipWith (· ^^^ ·) p q) = evalPoly x p ^^^ evalPoly x q := by
  induction p using List.reverseRecOn generalizing q with
  | nil =>
    obtain rfl : q = [] := List.length_eq_zero_iff.mp h.symm
    exact BitVec.xor_self.symm
  | append_singleton p c ih =>
    obtain ⟨q, e, rfl⟩ : ∃ q' e, q = q' ++ [e] := by
      have hne : q ≠ [] := by rintro rfl; simp at h
      exact ⟨_, _, (List.dropLast_append_getLast hne).symm⟩
    have hlength : p.length = q.length := by simpa using h
    rw [List.zipWith_append hlength, List.zipWith_cons_cons, List.zipWith_nil_left]
    simp only [evalPoly_concat, ih hlength, gfmul_xor_left]
    ac_rfl

theorem evalPoly_map_gfmul (x r : Byte) (p : List Byte) : evalPoly x (p.map (gfmul r)) = gfmul r (evalPoly x p) := by
  induction p using List.reverseRecOn with
  | nil => exact (gfmul_zero_right r).symm
  | append_singleton p c ih =>
    rw [List.map_append, List.map_singleton, evalPoly_concat, evalPoly_concat, ih, gfmul_assoc, gfmul_xor_right]

theorem evalPoly_zero_cons (x : Byte) (p : List Byte) : evalPoly x (0 :: p) = evalPoly x p := by
  rw [evalPoly, List.foldl_cons, gfmul_zero_left]
  rfl

theorem evalPoly_mulRoot (x r : Byte) (p : List Byte) : evalPoly x (mulRoot p r) = gfmul (evalPoly x p) (x ^^^ r) := by
  rw [mulRoot, evalPoly_zipWith x (by simp), evalPoly_concat, evalPoly_zero_cons, evalPoly_map_gfmul, gfmul_xor_right,
    gfmul_comm r]
  simp

theorem productGenerator_succ (k : Nat) : productGenerator (k + 1) = mulRoot (productGenerator k) (alog k) := by
  simp [productGenerator, List.range_succ]

/-- `α^0` to `α^(k-1)` are roots of `g_k` (10_state.md R30). -/
theorem evalPoly_productGenerator {j k : Nat} (h : j < k) : evalPoly (alog j) (productGenerator k) = 0 := by
  induction k with
  | zero => exact absurd h (Nat.not_lt_zero j)
  | succ k ih =>
    rw [productGenerator_succ, evalPoly_mulRoot]
    rcases Nat.lt_succ_iff_lt_or_eq.mp h with hlt | rfl
    · rw [ih hlt, gfmul_zero_left]
    · rw [BitVec.xor_self]
      exact gfmul_zero_right _

/-- A table of R30's form holds the generator polynomial itself. -/
theorem romGenerator_eq_productGenerator {rom : GenRom} (hroots : RootProducts rom) (hwf : rom.wf = true) {k : Nat}
    (hk : k ∈ rom.kSet) : romGenerator rom k = productGenerator k := by
  obtain ⟨hlength, hhead, hcoeffs⟩ := hroots k hk
  obtain ⟨tail, htail⟩ := List.head?_eq_some_iff.mp hhead
  rw [htail] at hlength hcoeffs ⊢
  refine congrArg (1 :: ·) (List.ext_getElem (by simpa [GenRom.row_length hwf hk] using hlength.symm) fun m hm hm' => ?_)
  obtain ⟨g, hg, hlog⟩ := hcoeffs m (by simpa [GenRom.row_length hwf hk] using hm)
  obtain ⟨hmrow, hrow⟩ := List.getElem?_eq_some_iff.mp hg
  rw [List.getElem_map, hrow, alog_log hlog]
  simp [hm']

/-! ### Values of sequences of coefficients -/

/-- The value at `x` of the first `n` coefficients. -/
def evalCoeffs (x : Byte) (f : Nat → Byte) (n : Nat) : Byte := evalPoly x ((List.range n).map f)

theorem evalCoeffs_succ (x : Byte) (f : Nat → Byte) (n : Nat) :
    evalCoeffs x f (n + 1) = gfmul (evalCoeffs x f n) x ^^^ f n := by
  rw [evalCoeffs, List.range_succ, List.map_append, List.map_singleton, evalPoly_concat, evalCoeffs]

theorem evalPoly_eq_evalCoeffs (x : Byte) (p : List Byte) : evalPoly x p = evalCoeffs x (coeffs p) p.length := by
  refine congrArg (evalPoly x) (List.ext_getElem (by simp) fun m hm _ => ?_)
  simp [coeffs, hm]

theorem evalCoeffs_one (x : Byte) (f : Nat → Byte) : evalCoeffs x f 1 = f 0 := by
  rw [evalCoeffs_succ, show evalCoeffs x f 0 = 0 from rfl, gfmul_zero_left]
  exact BitVec.zero_xor

/-- A pass of long division takes a multiple of the generator away. -/
theorem evalCoeffs_divCoeffs (x : Byte) (rom : GenRom) (k : Nat) (f : Nat → Byte) (n : Nat) :
    evalCoeffs x f (n + 1) = gfmul (f 0) (evalCoeffs x (genCoeff rom k) (n + 1)) ^^^ evalCoeffs x (divCoeffs rom k f) n := by
  induction n with
  | zero =>
    rw [Nat.zero_add, evalCoeffs_one, evalCoeffs_one, genCoeff_zero, gfmul_one_right]
    exact BitVec.xor_zero.symm
  | succ n ih =>
    rw [evalCoeffs_succ, ih, evalCoeffs_succ x (genCoeff rom k) (n + 1), evalCoeffs_succ x (divCoeffs rom k f) n,
      coeff_succ_eq rom k f n, gfmul_xor_left, gfmul_xor_right, gfmul_assoc]
    ac_rfl

/-- Past place `k` the generator has no coefficient, so a root stays one however many places are read. -/
theorem evalCoeffs_genCoeff_eq_zero {x : Byte} {rom : GenRom} (hwf : rom.wf = true) {k : Nat} (hk : k ∈ rom.kSet)
    (hroot : evalPoly x (romGenerator rom k) = 0) (n : Nat) : evalCoeffs x (genCoeff rom k) (k + 1 + n) = 0 := by
  induction n with
  | zero =>
    have hlength : (romGenerator rom k).length = k + 1 := by simp [romGenerator, GenRom.row_length hwf hk]
    rw [Nat.add_zero, ← hlength, genCoeff, ← evalPoly_eq_evalCoeffs, hroot]
  | succ n ih =>
    rw [← Nat.add_assoc, evalCoeffs_succ, ih, gfmul_zero_left, genCoeff_of_gt hwf hk (by omega)]
    exact BitVec.xor_self

/-- At a root of the generator the dividend and what is left after some passes have the same value. -/
theorem evalCoeffs_divCoeffs_iterate {x : Byte} {rom : GenRom} (hwf : rom.wf = true) {k : Nat} (hk : k ∈ rom.kSet)
    (hroot : evalPoly x (romGenerator rom k) = 0) (n : Nat) (f : Nat → Byte) :
    evalCoeffs x f (n + k) = evalCoeffs x ((divCoeffs rom k)^[n] f) k := by
  induction n generalizing f with
  | zero => rw [Nat.zero_add]; rfl
  | succ n ih =>
    have hplace : n + 1 + k = n + k + 1 := by omega
    have hzero : evalCoeffs x (genCoeff rom k) (n + k + 1) = 0 := by
      rw [show n + k + 1 = k + 1 + n by omega, evalCoeffs_genCoeff_eq_zero hwf hk hroot]
    rw [hplace, evalCoeffs_divCoeffs x rom k, hzero, gfmul_zero_right, ih, Function.iterate_succ_apply]
    exact BitVec.zero_xor

/-! ### Values of codewords -/

/-- The value of a codeword: the data's value, moved up by the EC bytes' places, with the EC bytes' value. -/
theorem evalPoly_append (x : Byte) (p q : List Byte) :
    evalPoly x (p ++ q) = evalCoeffs x (coeffs p) (p.length + q.length) ^^^ evalPoly x q := by
  induction q using List.reverseRecOn with
  | nil =>
    rw [List.append_nil, evalPoly_eq_evalCoeffs]
    exact BitVec.xor_zero.symm
  | append_singleton q c ih =>
    have hpast : coeffs p (p.length + q.length) = 0 := coeffs_of_ge (Nat.le_add_right _ _)
    rw [← List.append_assoc, evalPoly_concat, ih, gfmul_xor_left, evalPoly_concat, List.length_append, List.length_singleton,
      ← Nat.add_assoc, evalCoeffs_succ, hpast, BitVec.xor_assoc]
    exact congrArg (· ^^^ _) BitVec.xor_zero.symm

/-- Settles O50: `D(x)·x^k` and its remainder have the same value at a root of the generator. -/
theorem codewordsVanishAtTheRoots : Obligations.CodewordsVanishAtTheRoots := by
  intro rom d k data hwf hroots hd hk hlength
  refine ⟨blockEc rom k data, blockEc_length rom k data, ecBytes_blockEc hwf hk hlength hd, fun j hj => ?_⟩
  have hroot : evalPoly (alog j) (romGenerator rom k) = 0 := by
    rw [romGenerator_eq_productGenerator hroots hwf hk, evalPoly_productGenerator hj]
  rw [evalPoly_append, blockEc_length, evalCoeffs_divCoeffs_iterate hwf hk hroot]
  exact BitVec.xor_self

/-! ## Cells past the EC bytes (R133) -/

/-- Each pass moves the coefficients one place up, and writes none from place `k` on. -/
theorem divCoeffs_iterate_of_ge {rom : GenRom} (hwf : rom.wf = true) {k : Nat} (hk : k ∈ rom.kSet) (j : Nat) {f : Nat → Byte}
    (h : ∀ n, j + k ≤ n → f n = 0) {n : Nat} (hn : k ≤ n) : (divCoeffs rom k)^[j] f n = 0 := by
  induction j generalizing f with
  | zero => exact h n (by omega)
  | succ j ih =>
    refine ih fun m hm => ?_
    exact (divCoeffs_of_coeff_zero (genCoeff_of_gt hwf hk (by omega)) f).trans (h (m + 1) (by omega))

theorem readWb_blockWb_of_ge {rom : GenRom} (hwf : rom.wf = true) {k : Nat} (hk : k ∈ rom.kSet) {data : List Byte}
    (hlength : data.length ≤ 123) {m : Nat} (hkm : k ≤ m) (hm : m < 123) : readWb (blockWb rom k data) m = .byte 0 := by
  obtain ⟨hcells, -⟩ := blockWb_holdsCoeffs hwf hk hlength
  exact (hcells m hm).trans (congrArg WbCell.byte
    (divCoeffs_iterate_of_ge hwf hk data.length (fun n hn => coeffs_of_ge (by omega)) hkm))

/-! ## Programs that run to their end -/

/-- Every command of the program fits its word, passes its checks and is not held where it runs, and the program's effects lead
from `s` to `t`. -/
inductive Completes : List Instr → State → State → Prop where
  | nil (s : State) : Completes [] s s
  | cons {i : Instr} {prog : List Instr} {s t : State} (hwf : i.wellFormed = true) (hpass : firstFault i s = none)
      (hfree : holdCondition i s = false) (hrest : Completes prog (effectOf i s) t) : Completes (i :: prog) s t

theorem Completes.append {p q : List Instr} {s t u : State} (hp : Completes p s t) (hq : Completes q t u) :
    Completes (p ++ q) s u := by
  induction hp with
  | nil => exact hq
  | cons hwf hpass hfree _ ih => exact .cons hwf hpass hfree (ih hq)

theorem firstFault_withProgram (i : Instr) (s : State) (prog : List Instr) :
    firstFault i (s.withProgram prog) = firstFault i s := by
  cases i <;> rfl

theorem holdCondition_withProgram (i : Instr) (s : State) (prog : List Instr) :
    holdCondition i (s.withProgram prog) = holdCondition i s := by
  cases i <;> rfl

/-- A command's effect leaves the rest of the program in CQ. -/
theorem effectOf_withProgram (i : Instr) (s : State) (prog : List Instr) :
    effectOf i (s.withProgram (i :: prog)).popCommand = (effectOf i s).withProgram prog := by
  cases i <;> rfl

/-- The sequencer's turn with a program in CQ runs its first command. -/
theorem step_withProgram {i : Instr} {s : State} (hwf : i.wellFormed = true) (hfault : s.fault = false)
    (hpass : firstFault i s = none) (hfree : holdCondition i s = false) (prog : List Instr) :
    step (s.withProgram (i :: prog)) = .next ((effectOf i s).withProgram prog) := by
  rw [step_of_nil (s := s.withProgram (i :: prog)) rfl,
    sequencerStep_of_decode (s := s.withProgram (i :: prog)) (rest := prog.map encode) hfault rfl
      (decodeOfEncodeIsTheCommand i hwf),
    exec_completes ((firstFault_withProgram i s _).trans hpass) ((holdCondition_withProgram i s _).trans hfree),
    effectOf_withProgram]

/-- A step that leads on, before the steps of a run. -/
theorem run_succ {n : Nat} {s t : State} (h : step s = .next t) :
    Host.Core.run Sys2Proof.core (n + 1) s = Host.Core.run Sys2Proof.core n t := by
  have hcore : Host.Core.step Sys2Proof.core s = .next t := h
  simp only [Host.Core.run, hcore]

theorem fault_of_completes {prog : List Instr} {s t : State} (h : Completes prog s t) : t.fault = s.fault := by
  induction h with
  | nil => rfl
  | @cons i _ s _ _ _ _ _ ih =>
    obtain ⟨-, hfault, -⟩ := effectOf_frame i s
    exact ih.trans hfault

theorem run_of_completes {prog : List Instr} {s t : State} (h : Completes prog s t) (hfault : s.fault = false) :
    Host.Core.run Sys2Proof.core prog.length (s.withProgram prog) = .next (t.withProgram []) := by
  induction h with
  | nil => rfl
  | @cons i prog s t hwf hpass hfree _ ih =>
    obtain ⟨-, hkeep, -⟩ := effectOf_frame i s
    rw [List.length_cons, run_succ (step_withProgram hwf hfault hpass hfree prog), ih (hkeep.trans hfault)]

/-- A program that completes runs cleanly, a step for each command, until CQ is empty. -/
theorem cleanRun_of_completes {prog : List Instr} {s t : State} (h : Completes prog s t) (hfault : s.fault = false) :
    CleanRun prog.length (s.withProgram prog) (t.withProgram []) :=
  ⟨run_of_completes h hfault, (fault_of_completes h).trans hfault⟩

/-! ## The primitives of a block (30_encoding.md R89) -/

/-- The buffer after the bytes are written to it, from cell `place` on. -/
def writeCells (place : Nat) : List Byte → Wb → Wb
  | [], wb => wb
  | v :: vs, wb => writeCells (place + 1) vs (writeWb wb place (.byte v))

theorem readWb_writeCells (vs : List Byte) (place : Nat) (wb : Wb) {i : Nat} (hi : i < 123) :
    readWb (writeCells place vs wb) i =
      if place ≤ i ∧ i < place + vs.length then .byte (vs.getD (i - place) 0) else readWb wb i := by
  induction vs generalizing place wb with
  | nil => rw [writeCells, if_neg (by simp)]
  | cons v vs ih =>
    rw [writeCells, ih, readWb_writeWb, List.length_cons]
    rcases lt_trichotomy i place with hlt | rfl | hgt
    · rw [if_neg (by omega), if_neg (by omega), if_neg (by omega)]
    · rw [if_neg (by omega), if_pos ⟨rfl, hi⟩, if_pos (by omega), Nat.sub_self]
      rfl
    · obtain ⟨m, rfl⟩ := Nat.exists_eq_add_of_lt hgt
      have hhead : place + m + 1 - place = m + 1 := by omega
      have htail : place + m + 1 - (place + 1) = m := by omega
      rw [hhead, htail, List.getD_cons_succ]
      by_cases hm : m < vs.length
      · rw [if_pos (by omega), if_pos (by omega)]
      · rw [if_neg (by omega), if_neg (by omega), if_neg (by omega)]

/-- CLR and the LDBs leave the buffer that RSBLK starts from. -/
theorem writeCells_zeroWb (vs : List Byte) : writeCells 0 vs zeroWb = loadWb vs := by
  refine wb_ext fun i hi => ?_
  rw [readWb_writeCells vs 0 zeroWb hi, readWb_loadWb vs i hi, readWb_zeroWb, if_pos hi, Nat.sub_zero, Nat.zero_add]
  split
  · rfl
  next h =>
    have hge : vs.length ≤ i := by omega
    simp [hge]

theorem completes_loadSequence {vs : List Byte} {place : Nat} (h : place + vs.length ≤ 123) (s : State) :
    Completes (loadSequence place (vs.map BitVec.toNat)) s { s with wb := writeCells place vs s.wb } := by
  induction vs generalizing place s with
  | nil => exact .nil s
  | cons v vs ih =>
    rw [List.length_cons] at h
    refine .cons ?_ ((checkIndex_eq_none_iff place).mpr (by omega)) rfl ?_
    · have hv : v.toNat < 256 := v.isLt
      simp only [Instr.wellFormed, Bool.and_eq_true, decide_eq_true_eq]
      omega
    · have hrest := ih (place := place + 1) (by omega) (effectOf (.ldb place v.toNat) s)
      simpa [effectOf, writeCells] using hrest

theorem completes_steps (n : Nat) {s : State} (hkv : s.kv = true) (hdefined : s.wb.Defined) :
    Completes (List.replicate n .step) s { s with wb := (divStep s.genRom s.kr.toNat)^[n] s.wb } := by
  induction n generalizing s with
  | zero => exact .nil s
  | succ n ih =>
    obtain ⟨b, hb⟩ := hdefined 0 (by decide)
    exact .cons rfl (passes_step hkv (byte_ne_poison hb)) rfl (ih (s := effectOf .step s) hkv (divStep_defined hdefined))

/-- CLR, the LDBs, SETK and the STEPs leave the buffer of the block, and KR. -/
theorem completes_primitiveDivision {s : State} {k : Nat} {vs : List Byte} (hwf : s.genRom.wf = true) (hk : k ∈ s.genRom.kSet)
    (hlength : vs.length ≤ 123) : Completes (primitiveDivision k vs) s
      { s with wb := blockWb s.genRom k vs, kr := BitVec.ofNat 8 k, kv := true } := by
  obtain ⟨-, hle⟩ := GenRom.kSet_bounds hwf hk
  have hload := completes_loadSequence (place := 0) (by omega) (effectOf .clr s) (vs := vs)
  have hbuffer : writeCells 0 vs (effectOf .clr s).wb = loadWb vs := writeCells_zeroWb vs
  rw [hbuffer] at hload
  have hdivide := completes_steps vs.length (s := { s with wb := loadWb vs, kr := BitVec.ofNat 8 k, kv := true }) rfl
    (loadWb_defined vs)
  rw [toNat_ofNat_of_mem_kSet hwf hk] at hdivide
  refine .cons rfl rfl rfl (hload.append (.cons ?_ ((checkK_eq_none_iff k _).mpr hk) rfl hdivide))
  exact decide_eq_true (show k < 256 by omega)

theorem loadSequence_length (place : Nat) (vs : List Nat) : (loadSequence place vs).length = vs.length := by
  induction vs generalizing place with
  | nil => rfl
  | cons v vs ih => rw [loadSequence, List.length_cons, List.length_cons, ih]

theorem primitiveDivision_length (k : Nat) (vs : List Byte) : (primitiveDivision k vs).length = 2 * vs.length + 2 := by
  simp only [primitiveDivision, List.length_cons, List.length_append, loadSequence_length, List.length_map,
    List.length_replicate]
  omega

/-- Settles O47: both ways leave the buffer of the block, whose cells from `k` on are 0. -/
theorem cellsPastTheEcBytesAreZero : Obligations.CellsPastTheEcBytesAreZero := by
  refine ⟨fun s d k hwf hd hk hdin hroom => ?_, fun s d k vs hwf hfault hlength hd hk => ?_⟩
  · have htake : (s.din.take d).length ≤ 123 := (List.length_take_le d s.din).trans hd
    exact ⟨_, execRsblk_completes hd hk hdin hroom, fun m => readWb_blockWb_of_ge hwf hk htake⟩
  · subst hlength
    have hrun := cleanRun_of_completes (completes_primitiveDivision hwf hk hd) hfault
    rw [primitiveDivision_length] at hrun
    exact ⟨_, hrun, rfl, fun m => readWb_blockWb_of_ge hwf hk hd⟩

/-! ## RSBLK and its expansion (R131) -/

theorem rsprim_expand (k : Nat) (vs : List Byte) :
    (AsmLine.rsprim k (vs.map BitVec.toNat)).expand = primitiveDivision k vs ++ [.emit] := by
  simp [AsmLine.expand, primitiveDivision]

theorem completes_rsblk {s : State} {d k : Nat} (hwf : s.genRom.wf = true) (hd : d ≤ 123) (hk : k ∈ s.genRom.kSet)
    (hdin : d ≤ s.din.length) (hroom : s.dout.length + k ≤ Config.doutDepth) :
    Completes [.rsblk d k] s (rsblkEffect d k s) :=
  .cons (rsblk_wellFormed hwf hd hk) (passes_rsblk hd hk) (free_rsblk hdin hroom) (.nil _)

theorem completes_emit {s : State} {k : Nat} (hkv : s.kv = true) (hkr : s.kr.toNat = k) (hk : k ≤ 123)
    (hdefined : s.wb.Defined) (hroom : s.dout.length + k ≤ Config.doutDepth) :
    Completes [.emit] s (s.pushDout (wbBytes k s.wb)) := by
  subst hkr
  refine .cons rfl (passes_emit hkv fun m hm => ?_) (decide_eq_false (Nat.not_lt.mpr hroom)) (.nil _)
  obtain ⟨b, hb⟩ := hdefined m (by omega)
  exact byte_ne_poison hb

/-- Settles O46: RSPRIM's division leaves RSBLK's buffer and KR, and its EMIT sends the same bytes. -/
theorem blockCommandEqualsItsPrimitives : Obligations.BlockCommandEqualsItsPrimitives := by
  intro s d k vs rest hwf hfault hdin hlength hd hk hroom
  subst hlength
  obtain ⟨-, hle⟩ := GenRom.kSet_bounds hwf hk
  have htake : s.din.take vs.length = vs := by rw [hdin, List.take_left]
  have hdrop : s.din.drop vs.length = rest := by rw [hdin, List.drop_left]
  have hblock := completes_rsblk hwf hd hk (by simp [hdin]) hroom
  have hprim := (completes_primitiveDivision hwf hk hd).append
    (completes_emit rfl (toNat_ofNat_of_mem_kSet hwf hk) hle (blockWb_defined s.genRom k vs) hroom)
  have hrun := cleanRun_of_completes hprim hfault
  rw [List.length_append, primitiveDivision_length, ← rsprim_expand] at hrun
  refine ⟨_, _, cleanRun_of_completes hblock hfault, hrun, rfl, rfl, ?_, rfl, rfl, rfl, rfl, ?_, hdrop, rfl⟩
  · exact congrArg (blockWb s.genRom k) htake
  · exact congrArg (fun data => s.dout ++ wbBytes k (blockWb s.genRom k data)) htake

/-! ## A whole symbol (R140) -/

/-- Between two blocks: not halted, and no command or data byte waits. -/
structure Waiting (s : State) : Prop where
  fault_eq : s.fault = false
  cq_eq : s.cq = []
  din_eq : s.din = []

/-- The state after a block whose turns leave `ts`. -/
def afterBlock (k : Nat) (data : List Byte) (ts : List Turn) (s : State) : State :=
  { s with wb := blockWb s.genRom k data, kr := BitVec.ofNat 8 k, kv := true, cq := [], din := [],
           dout := s.dout ++ blockEc s.genRom k data, turns := ts }

theorem waiting_afterBlock {s : State} (h : s.fault = false) (k : Nat) (data : List Byte) (ts : List Turn) :
    Waiting (afterBlock k data ts s) := ⟨h, rfl, rfl⟩

/-! ### The turns of one block -/

theorem step_writesDin {s : State} {b : Byte} {ts : List Turn}
    (hturns : s.turns = .host (.write (Config.rsbchBase + 0x04) 32 (b.setWidth 32)) :: ts)
    (hroom : s.din.length < Config.dinDepth) : step s = .next { s with turns := ts, din := s.din ++ [b] } := by
  have hb : (b.setWidth 32).toNat = b.toNat := BitVec.toNat_setWidth_of_le (by decide)
  have hwrite := writeDin_of_lt (t := { s with turns := ts }) (hb.trans_lt b.isLt) hroom
  rw [hb, BitVec.ofNat_toNat, BitVec.setWidth_eq] at hwrite
  exact (step_of_write (r := .din) rfl ⟨ts, hturns, rfl⟩).trans hwrite

theorem run_writesDin (data : List Byte) {s : State} {ts : List Turn}
    (hturns : s.turns = (data.map fun b => HostAction.write (Config.rsbchBase + 0x04) 32 (b.setWidth 32)).map Turn.host ++ ts)
    (hroom : s.din.length + data.length ≤ Config.dinDepth) (n : Nat) :
    Host.Core.run Sys2Proof.core (data.length + n) s =
      Host.Core.run Sys2Proof.core n { s with turns := ts, din := s.din ++ data } := by
  induction data generalizing s with
  | nil =>
    rw [List.map_nil, List.map_nil, List.nil_append] at hturns
    rw [List.length_nil, Nat.zero_add, List.append_nil, ← hturns]
  | cons b data ih =>
    rw [List.length_cons] at hroom
    rw [List.length_cons, Nat.add_right_comm, run_succ (step_writesDin hturns (by omega)), ih rfl (by simp; omega),
      List.append_assoc, List.singleton_append]

theorem step_writesCmd {s : State} {w : Word} {ts : List Turn} (hturns : s.turns = .host (.write Config.rsbchBase 32 w) :: ts)
    (hroom : s.cq.length < Config.cqDepth) : step s = .next { s with turns := ts, cq := s.cq ++ [w] } :=
  (step_of_write (off := 0) (r := .cmd) rfl ⟨ts, hturns, rfl⟩).trans (writeCmd_of_lt (t := { s with turns := ts }) hroom)

/-- The sequencer's turn with a block's RSBLK alone in CQ and its data alone in DIN. -/
theorem step_runsRsblk {s : State} {k : Nat} {data : List Byte} {ts : List Turn} (hturns : s.turns = .sequencer :: ts)
    (hfault : s.fault = false) (hcq : s.cq = [encode (.rsblk data.length k)]) (hdin : s.din = data)
    (hwf : s.genRom.wf = true) (hd : data.length ≤ 123) (hk : k ∈ s.genRom.kSet)
    (hroom : s.dout.length + k ≤ Config.doutDepth) : step s = .next (afterBlock k data ts s) := by
  have hdecode := decodeOfEncodeIsTheCommand _ (rsblk_wellFormed hwf hd hk)
  rw [stepRunsDecodedCommand s _ _ [] _ (.inr ⟨ts, hturns, rfl⟩) hfault hcq hdecode]
  refine (execRsblk_completes (s := { s with turns := ts }) hd hk (by simp [hdin]) hroom).trans (congrArg Host.Outcome.next ?_)
  simp [rsblkEffect, afterBlock, State.dropDin, State.pushDout, State.popCommand, wbBytes_blockWb hwf hk hd, hcq, hdin]

/-- The turns of one block: its data bytes, its RSBLK, and the sequencer's turn that runs it. -/
theorem run_block {s : State} (hs : Waiting s) {k : Nat} {data : List Byte} {ts : List Turn}
    (hturns : s.turns = (blockActions data.length k data).map Turn.host ++ .sequencer :: ts) (hwf : s.genRom.wf = true)
    (hd : data.length ≤ 123) (hk : k ∈ s.genRom.kSet) (hroom : s.dout.length + k ≤ Config.doutDepth) (n : Nat) :
    Host.Core.run Sys2Proof.core (data.length + (n + 2)) s = Host.Core.run Sys2Proof.core n (afterBlock k data ts s) := by
  obtain ⟨hfault, hcq, hdin⟩ := hs
  have hdinRoom : s.din.length + data.length ≤ Config.dinDepth := by
    rw [hdin, List.length_nil, Config.dinDepth]
    omega
  have hcqRoom : s.cq.length < Config.cqDepth := by
    rw [hcq]
    exact Nat.succ_pos _
  rw [blockActions, List.map_append, List.append_assoc] at hturns
  have hwrites := step_writesCmd (w := encode (.rsblk data.length k))
    (s := { s with turns := _ :: .sequencer :: ts, din := s.din ++ data }) rfl hcqRoom
  have hruns := step_runsRsblk
    (s := { s with turns := .sequencer :: ts, din := s.din ++ data, cq := s.cq ++ [encode (.rsblk data.length k)] })
    rfl hfault (by rw [hcq, List.nil_append]) (by rw [hdin, List.nil_append]) hwf hd hk hroom
  exact (run_writesDin data hturns hdinRoom (n + 2)).trans ((run_succ hwrites).trans (run_succ hruns))

/-! ### The turns of all blocks -/

/-- The EC bytes of each block, a block taking the next of the data bytes. -/
def symbolEc (rom : GenRom) : List (Nat × Nat) → List Byte → List (List Byte)
  | [], _ => []
  | (d, k) :: blocks, data => blockEc rom k (data.take d) :: symbolEc rom blocks (data.drop d)

theorem symbolEcBytes_symbolEc {rom : GenRom} (hwf : rom.wf = true) {blocks : List (Nat × Nat)} {data : List Byte}
    (hblocks : ∀ b ∈ blocks, b.1 ≤ 123 ∧ b.2 ∈ rom.kSet) (hlength : data.length = (blocks.map Prod.fst).sum) :
    SymbolEcBytes rom blocks data (symbolEc rom blocks data) := by
  induction blocks generalizing data with
  | nil => rfl
  | cons b blocks ih =>
    obtain ⟨d, k⟩ := b
    obtain ⟨⟨hd, hk⟩, hrest⟩ := List.forall_mem_cons.mp hblocks
    rw [List.map_cons, List.sum_cons] at hlength
    have htake : (data.take d).length = d := List.length_take_of_le (by omega)
    exact ⟨_, _, rfl, ecBytes_blockEc hwf hk htake hd, blockEc_length _ _ _, ih hrest (by simp [hlength])⟩

theorem run_symbolTurns {blocks : List (Nat × Nat)} {data : List Byte} {s : State} (hs : Waiting s)
    (hturns : s.turns = symbolTurns blocks data) (hwf : s.genRom.wf = true)
    (hblocks : ∀ b ∈ blocks, b.1 ≤ 123 ∧ b.2 ∈ s.genRom.kSet) (hlength : data.length = (blocks.map Prod.fst).sum)
    (hroom : s.dout.length + (blocks.map Prod.snd).sum ≤ Config.doutDepth) :
    ∃ t, Host.Core.run Sys2Proof.core (symbolTurns blocks data).length s = .next t ∧ Waiting t ∧
      t.dout = s.dout ++ (symbolEc s.genRom blocks data).flatten := by
  induction blocks generalizing data s with
  | nil => exact ⟨s, rfl, hs, (List.append_nil _).symm⟩
  | cons b blocks ih =>
    obtain ⟨d, k⟩ := b
    obtain ⟨⟨hd, hk⟩, hrest⟩ := List.forall_mem_cons.mp hblocks
    rw [List.map_cons, List.sum_cons] at hlength hroom
    have htake : (data.take d).length = d := List.length_take_of_le (by omega)
    have hsteps : (symbolTurns ((d, k) :: blocks) data).length =
        (data.take d).length + ((symbolTurns blocks (data.drop d)).length + 2) := by
      simp only [symbolTurns, blockActions, List.length_append, List.length_map, List.length_cons, List.length_nil]
      omega
    have hblockRoom : s.dout.length + k ≤ Config.doutDepth := by omega
    have hblock := run_block (data := data.take d) hs (by rw [htake]; exact hturns) hwf (htake.trans_le hd) hk hblockRoom
      (symbolTurns blocks (data.drop d)).length
    have hnext := waiting_afterBlock hs.fault_eq k (data.take d) (symbolTurns blocks (data.drop d))
    have hnextRoom : (s.dout ++ blockEc s.genRom k (data.take d)).length + (blocks.map Prod.snd).sum ≤ Config.doutDepth := by
      rw [List.length_append, blockEc_length]
      omega
    obtain ⟨t, hrun, ht, hdout⟩ := ih hnext rfl hwf hrest (by simp [hlength]) hnextRoom
    rw [hsteps]
    exact ⟨t, hblock.trans hrun, ht, hdout.trans (List.append_assoc _ _ _)⟩

/-- What the host does in the turns is its program. -/
theorem filterMap_symbolTurns {f : Turn → Option HostAction} (hhost : ∀ a, f (.host a) = some a) (hseq : f .sequencer = none)
    (blocks : List (Nat × Nat)) (data : List Byte) : (symbolTurns blocks data).filterMap f = encodeBlocks blocks data := by
  induction blocks generalizing data with
  | nil => rfl
  | cons b blocks ih =>
    obtain ⟨d, k⟩ := b
    have hactions : f ∘ Turn.host = some := funext hhost
    rw [symbolTurns, List.filterMap_append, List.filterMap_map, hactions, List.filterMap_some, List.filterMap_cons_none hseq, ih,
      encodeBlocks]

/-- Settles O51: block after block, each from a waiting block to a waiting block with its EC bytes sent. -/
theorem symbolEcOutputIsInBlockOrder : Obligations.SymbolEcOutputIsInBlockOrder := by
  intro rom groups data hwf hblocks hlength hroom
  have hstart : Waiting { State.reset with genRom := rom, turns := symbolTurns (symbolBlocks groups) data } := ⟨rfl, rfl, rfl⟩
  obtain ⟨t, hrun, ⟨hfault, hcq, hdin⟩, hdout⟩ := run_symbolTurns hstart rfl hwf hblocks hlength
    (by simpa [State.reset] using hroom)
  exact ⟨t, symbolEc rom (symbolBlocks groups) data, ⟨hrun, hfault⟩, filterMap_symbolTurns (fun _ => rfl) rfl _ _,
    symbolEcBytes_symbolEc hwf hblocks hlength, hdout, hdin, hcq⟩

end Sys2Proof.Proofs
end

section
/-! PROOFS. The family 42_bch_format.md: FMT and the format words.

A format word is a codeword of the BCH code under the mask 0x5412 (`formatWord_eq`). Long division is linear, so the codewords
are a linear code, and the distance of two of them is the weight of a third (R154). FMT and the Reed–Solomon commands are
independent because no other command looks at FMTR or FV (`exec_withFormat`, R157). -/

namespace Sys2Proof.Proofs

open Sys2Proof Sys2Proof.Machine Sys2Proof.Claims

/-! ## FMT and the other commands -/

/-- FMT fails no check and is never held, and its effect is the format word (R152). -/
theorem execFmt_completes (level mask : Nat) (s : State) :
    exec (.fmt level mask) s = .next { s with cq := s.cq.tail, fmtr := formatWord level mask, fv := true } :=
  exec_completes rfl rfl

/-- The state with another format word and flag in FMTR and FV. -/
def withFormat (f : BitVec 15) (v : Bool) (s : State) : State := { s with fmtr := f, fv := v }

theorem firstFault_withFormat (i : Instr) (f : BitVec 15) (v : Bool) (s : State) :
    firstFault i (withFormat f v s) = firstFault i s := by
  cases i <;> rfl

theorem holdCondition_withFormat (i : Instr) (f : BitVec 15) (v : Bool) (s : State) :
    holdCondition i (withFormat f v s) = holdCondition i s := by
  cases i <;> rfl

/-- The effect of a command that is no FMT takes no account of FMTR and FV, and leaves them. -/
theorem effectOf_withFormat {i : Instr} (hi : ∀ level mask, i ≠ .fmt level mask) (f : BitVec 15) (v : Bool) (t : State) :
    effectOf i (withFormat f v t) = withFormat f v (effectOf i t) := by
  cases i with
  | fmt level mask => exact absurd rfl (hi level mask)
  | _ => rfl

theorem exec_withFormat {i : Instr} (hi : ∀ level mask, i ≠ .fmt level mask) (f : BitVec 15) (v : Bool) {s t : State}
    (h : exec i s = .next t) : exec i (withFormat f v s) = .next (withFormat f v t) := by
  have hpass := firstFault_withFormat i f v s
  have hhold := holdCondition_withFormat i f v s
  rcases exec_cases i s with ⟨r, hr, he⟩ | ⟨hr, hh, he⟩ | ⟨hr, hh, he⟩ <;> cases he.symm.trans h
  · exact (exec_eq_runCommand i _).trans (runCommand_fault (hpass.trans hr))
  · exact exec_of_holds (hpass.trans hr) (hhold.trans hh)
  · rw [exec_completes (hpass.trans hr) (hhold.trans hh), ← effectOf_withFormat hi]
    rfl

/-- Settles O32: FMT's word depends on its operands alone; of the rest only FMT writes FMTR and FV (O29), and none reads them. -/
theorem formatAndReedSolomonAreIndependent : Obligations.FormatAndReedSolomonAreIndependent := by
  refine ⟨fun s u level mask =>
    ⟨_, _, execFmt_completes level mask s, execFmt_completes level mask u, rfl, rfl, rfl⟩, fun i s t f v hi h => ?_⟩
  have hkeeps : ¬ (t.fmtr ≠ s.fmtr ∨ t.fv ≠ s.fv) := fun hwrites => by
    obtain ⟨-, -, hfmt, -⟩ := onlyTheNamedCommandsWriteEachState i s t h
    obtain ⟨level, mask, rfl⟩ := hfmt hwrites
    exact hi level mask rfl
  obtain ⟨hfmtr, hfv⟩ := not_or.mp hkeeps
  exact ⟨not_not.mp hfmtr, not_not.mp hfv, exec_withFormat hi f v h⟩

/-! ## The format word -/

/-- `(data5 << 10) | remainder` (R150): the data bits over their remainder. -/
def bchCodeword (d : BitVec 5) : BitVec 15 := d ++ bchRem d

theorem bchCodeword_eq_or (d : BitVec 5) : bchCodeword d = d.setWidth 15 <<< 10 ||| (bchRem d).setWidth 15 := by
  rw [bchCodeword, BitVec.append_def, BitVec.shiftLeftZeroExtend_eq, BitVec.setWidth'_eq]

theorem formatWord_eq (level mask : Nat) : formatWord level mask = bchCodeword (data5 level mask) ^^^ 0x5412 := by
  rw [formatWord, bchCodeword_eq_or]

/-- `data5` as a number (R151, R152). -/
theorem data5_eq_ofNat : ∀ level < 4, ∀ mask < 8, data5 level mask = BitVec.ofNat 5 ((level ^^^ 1) * 8 + mask) := by decide

theorem data5_toNat {level mask : Nat} (hlevel : level < 4) (hmask : mask < 8) :
    (data5 level mask).toNat = (level ^^^ 1) * 8 + mask := by
  have hcode : level ^^^ 1 < 2 ^ 2 := Nat.xor_lt_two_pow hlevel (by decide)
  rw [data5_eq_ofNat level hlevel mask hmask, BitVec.toNat_ofNat, Nat.mod_eq_of_lt (by omega)]

theorem bchCodeword_eq_ofNat (d : BitVec 5) : bchCodeword d = BitVec.ofNat 15 (d.toNat * 1024 + (bchRem d).toNat) := by
  rw [bchCodeword, ← BitVec.toNat_inj, BitVec.toNat_append, BitVec.toNat_ofNat]
  have hdata : d.toNat < 2 ^ 5 := d.isLt
  have hrem : (bchRem d).toNat < 2 ^ 10 := (bchRem d).isLt
  rw [Nat.mod_eq_of_lt (by omega), ← Nat.shiftLeft_add_eq_or_of_lt hrem, Nat.shiftLeft_eq]

/-- Settles O23: the word of FMT, its fields read as numbers. -/
theorem fmtComputesTheFormatWord : Obligations.FmtComputesTheFormatWord := by
  refine ⟨rowOf_of_row 8 rfl, fun s level mask hlevel hmask => ?_⟩
  rw [execFmt_completes, formatWord_eq, bchCodeword_eq_ofNat, data5_toNat hlevel hmask, data5_eq_ofNat level hlevel mask hmask]

/-! ## Long division is linear -/

theorem ite_xor (a b : Bool) (g : BitVec 15) :
    (if a ^^ b then g else 0) = (if a then g else 0) ^^^ (if b then g else 0) := by
  cases a <;> cases b <;> simp

theorem bchStep_eq_xor (v : BitVec 15) (i : Nat) :
    bchStep v i = v ^^^ (if v.getLsbD i then BitVec.ofNat 15 (0x537 <<< (i - 10)) else 0) := by
  unfold bchStep
  split <;> simp

theorem bchStep_xor (v w : BitVec 15) (i : Nat) : bchStep (v ^^^ w) i = bchStep v i ^^^ bchStep w i := by
  simp only [bchStep_eq_xor, BitVec.getLsbD_xor, ite_xor]
  ac_rfl

theorem foldl_bchStep_xor (is : List Nat) (v w : BitVec 15) :
    is.foldl bchStep (v ^^^ w) = is.foldl bchStep v ^^^ is.foldl bchStep w := by
  induction is generalizing v w with
  | nil => rfl
  | cons i is ih => rw [List.foldl_cons, bchStep_xor, ih, List.foldl_cons, List.foldl_cons]

theorem bchRem_xor (d e : BitVec 5) : bchRem (d ^^^ e) = bchRem d ^^^ bchRem e := by
  simp only [bchRem, BitVec.setWidth_xor, BitVec.shiftLeft_xor_distrib, foldl_bchStep_xor]

/-- The codewords are a linear code. -/
theorem bchCodeword_xor (d e : BitVec 5) : bchCodeword (d ^^^ e) = bchCodeword d ^^^ bchCodeword e := by
  rw [bchCodeword, bchRem_xor, bchCodeword, bchCodeword, BitVec.xor_append]

/-! ## The code of the format words -/

theorem bchCodeword_data (d : BitVec 5) : (bchCodeword d).extractLsb' 10 5 = d := BitVec.extractLsb'_append_eq_left

theorem bchCodeword_rem (d : BitVec 5) : (bchCodeword d).extractLsb' 0 10 = bchRem d := BitVec.extractLsb'_append_eq_right

/-- The 32 codewords, multiplied out. -/
theorem bchCodeword_eq_mulBch : ∀ d : BitVec 5, ∃ q : BitVec 5, bchCodeword d = mulBch q := by decide

/-- The least weight of the code: the 31 codewords that are not 0, counted out. -/
theorem le_weight_bchCodeword : ∀ d : BitVec 5, d ≠ 0 → 7 ≤ distance (bchCodeword d) 0 := by decide

theorem distance_eq_weight (a b : BitVec 15) : distance a b = distance (a ^^^ b) 0 := by
  simp [distance, BitVec.getLsbD_xor]

/-- A mask on both words takes no part in their distance. -/
theorem distance_xor_right (a b m : BitVec 15) : distance (a ^^^ m) (b ^^^ m) = distance a b := by
  have hcancel : (a ^^^ m) ^^^ (b ^^^ m) = (a ^^^ b) ^^^ (m ^^^ m) := by ac_rfl
  rw [distance_eq_weight, hcancel, BitVec.xor_self, BitVec.xor_zero, ← distance_eq_weight]

/-- The difference of two codewords is the codeword of the difference, so their distance is its weight. -/
theorem le_distance_bchCodeword {d e : BitVec 5} (h : d ≠ e) : 7 ≤ distance (bchCodeword d) (bchCodeword e) := by
  rw [distance_eq_weight, ← bchCodeword_xor]
  exact le_weight_bchCodeword (d ^^^ e) (mt BitVec.xor_eq_zero_iff.mp h)

theorem formatWord_xor_mask (level mask : Nat) : formatWord level mask ^^^ 0x5412 = bchCodeword (data5 level mask) := by
  rw [formatWord_eq, BitVec.xor_assoc, BitVec.xor_self, BitVec.xor_zero]

theorem data5_inj {l₁ m₁ l₂ m₂ : Nat} (hl₁ : l₁ < 4) (hm₁ : m₁ < 8) (hl₂ : l₂ < 4) (hm₂ : m₂ < 8)
    (h : data5 l₁ m₁ = data5 l₂ m₂) : (l₁, m₁) = (l₂, m₂) := by
  have hnat : (l₁ ^^^ 1) * 8 + m₁ = (l₂ ^^^ 1) * 8 + m₂ := by rw [← data5_toNat hl₁ hm₁, ← data5_toNat hl₂ hm₂, h]
  have hmask : m₁ = m₂ := by omega
  have hcode : l₁ ^^^ 1 = l₂ ^^^ 1 := by omega
  rw [hmask, Nat.xor_left_injective hcode]

/-- The word that FMT leaves in FMTR. -/
theorem fmtr_of_execFmt {level mask : Nat} {s t : State} (h : exec (.fmt level mask) s = .next t) :
    t.fmtr = formatWord level mask := by
  cases (execFmt_completes level mask s).symm.trans h
  rfl

/-- Settles O24: under the mask the word is a codeword, and the code's least weight is 7. -/
theorem formatWordsAreBchCodewords : Obligations.FormatWordsAreBchCodewords := by
  refine ⟨fun s t level mask hlevel hmask h => ?_, fun s t u l₁ m₁ l₂ m₂ hl₁ hm₁ hl₂ hm₂ hne ht hu => ?_⟩
  · rw [fmtr_of_execFmt h, formatWord_xor_mask, bchCodeword_data, bchCodeword_rem, data5_toNat hlevel hmask,
      data5_eq_ofNat level hlevel mask hmask]
    exact ⟨bchCodeword_eq_mulBch _, rfl, rfl⟩
  · rw [fmtr_of_execFmt ht, fmtr_of_execFmt hu, formatWord_eq, formatWord_eq, distance_xor_right]
    exact le_distance_bchCodeword (mt (data5_inj hl₁ hm₁ hl₂ hm₂) hne)

end Sys2Proof.Proofs
end

section
/-! PROOFS. The family 60_exceptions.md: which fault is reported, and how the fault state is left. -/

namespace Sys2Proof.Proofs

open Sys2Proof Sys2Proof.Machine Sys2Proof.Claims

/-! ## Fault entry -/

/-- Settles O10: an illegal word never reaches `exec`; a decoded command fails in `exec`, whatever its hold condition. -/
theorem firstFailingCheckIsReported : Obligations.FirstFailingCheckIsReported := by
  intro s t w rest hturn hfault hcq
  obtain ⟨hf, hc⟩ := sequencerTurn_fault_cq hturn
  refine ⟨fun hillegal => ?_, fun i code info hdecode hfails => ?_⟩
  · exact (step_of_sequencerTurn hturn).trans (sequencerStep_of_illegal (hf.trans hfault) (hc.trans hcq) hillegal)
  · exact (stepRunsDecodedCommand s t w rest i hturn hfault hcq hdecode).trans (exec_of_faultsWith (hc.trans hcq) hfails)

/-! ## Leaving the fault state -/

/-- The two causes of a reset: the RST input, and a write of 1 to CTRL (R177). -/
def ResetCause (a : HostAction) : Prop := a = .rst ∨ a = .write (Config.rsbchBase + 0x28) 32 1

/-- The fault state of `t` is that of `u`. -/
def SameFaultState (u t : State) : Prop :=
  t.fault = u.fault ∧ t.errcode = u.errcode ∧ t.errcmd = u.errcmd ∧ t.errinfo = u.errinfo

/-- No host access but a reset writes the fault state (R170, R177). -/
theorem hostStep_resets_or_keepsFault {a : HostAction} {u t : State} (h : hostStep a u = .next t) :
    (ResetCause a ∧ t = resetBlock u) ∨ SameFaultState u t := by
  rcases hostStep_cases h with ⟨r, addr, width, rfl, -, hr⟩ | ⟨r, addr, width, w, rfl, haccess, hw⟩ | ⟨rfl, ht⟩
  · rcases readReg_cases hr with ⟨v, rfl⟩ | ⟨b, rest, -, -, rfl⟩
    · exact .inr ⟨rfl, rfl, rfl, rfl⟩
    · exact .inr ⟨rfl, rfl, rfl, rfl⟩
  · rcases writeReg_cases hw with ⟨-, -, rfl⟩ | ⟨-, -, rfl⟩ | ⟨rfl, hbit, ht⟩ | ⟨-, -, rfl⟩
    · exact .inr ⟨rfl, rfl, rfl, rfl⟩
    · exact .inr ⟨rfl, rfl, rfl, rfl⟩
    · obtain ⟨rfl, rfl⟩ := access_of_register (off := 0x28) haccess rfl
      cases eq_one_of_writeCtrl hw hbit
      exact .inl ⟨.inr rfl, ht⟩
    · exact .inr ⟨rfl, rfl, rfl, rfl⟩
  · exact .inl ⟨.inl rfl, ht⟩

/-- Settles O30: the halted sequencer does nothing, and no host access but a reset writes the fault state. -/
theorem onlyResetLeavesTheFaultState : Obligations.OnlyResetLeavesTheFaultState := by
  intro s t hfault hstep
  rcases step_cases s with ⟨hturn, -⟩ | ⟨a, hturn, hs⟩
  · have hidle := noSequencerStepWhileHaltedOrIdle s _ (sequencerTurn_nextTurn hturn) (.inl hfault)
    cases hidle.symm.trans hstep
    exact .inl (by simp [hfault])
  · obtain ⟨ts, hts, hu⟩ := hostTurn_nextTurn hturn
    rw [hu] at hs
    rcases hostStep_resets_or_keepsFault (hs.symm.trans hstep) with ⟨rfl | rfl, rfl⟩ | ⟨hf, hcode, hcmd, hinfo⟩
    · exact .inr ⟨⟨ts, .inl hts⟩, rfl, rfl, rfl, rfl⟩
    · exact .inr ⟨⟨ts, .inr hts⟩, rfl, rfl, rfl, rfl⟩
    · exact .inl ⟨hf.trans hfault, hcode, hcmd, hinfo, by simp [hts]⟩

end Sys2Proof.Proofs
end

section
/-! PROOFS. The family 70_reset_and_hazards.md: the two causes of a reset, the first command after one, and holds that the
host can always lift. -/

namespace Sys2Proof.Proofs

open Sys2Proof Sys2Proof.Machine Sys2Proof.Claims

/-! ## Holds -/

/-- An empty DOUT has room for the EC bytes of any block (00_scope.md R8, R10). -/
theorem le_doutDepth_of_mem_kSet {rom : GenRom} (hwf : rom.wf = true) {k : Nat} (hk : k ∈ rom.kSet) :
    k ≤ Config.doutDepth := by
  obtain ⟨-, hle⟩ := GenRom.kSet_bounds hwf hk
  exact hle.trans (Nat.le_add_left 123 Config.doutExtra)

theorem not_holdCondition_of_dout_nil {i : Instr} {s : State} (hinv : s.Inv) (hpass : firstFault i s = none)
    (hdout : s.dout = []) (hdin : ∀ d k, i = .rsblk d k → d ≤ s.din.length) : ¬ HoldCondition i s := by
  cases i with
  | rdb idx => simp [HoldCondition, hdout, Config.doutDepth]
  | emit =>
    obtain ⟨hcheck, -⟩ := Option.or_eq_none_iff.mp hpass
    have hroom := le_doutDepth_of_mem_kSet hinv.rom_wf (hinv.kr_mem ((checkKv_eq_none_iff s).mp hcheck))
    simpa [HoldCondition, hdout] using hroom
  | rsblk d k =>
    obtain ⟨-, hcheck⟩ := Option.or_eq_none_iff.mp hpass
    have hroom := le_doutDepth_of_mem_kSet hinv.rom_wf ((checkK_eq_none_iff k s).mp hcheck)
    simpa [HoldCondition, hdout] using And.intro (hdin d k rfl) hroom
  | _ => exact id

/-- DIN has room for the data bytes of every RSBLK that passes its checks, whatever is queued (R9, R10). -/
theorem le_dinDepth_of_rsblk_passes {d k : Nat} {s : State} (hpass : firstFault (.rsblk d k) s = none) :
    d ≤ Config.dinDepth := by
  obtain ⟨hcheck, -⟩ := Option.or_eq_none_iff.mp hpass
  exact ((checkD_eq_none_iff d).mp hcheck).trans (Nat.le_add_left 123 Config.dinExtra)

/-- Settles O13: the fault checks bound what a command sends and what it needs by the least capacities of R10. -/
theorem everyHoldCanBeLifted : Obligations.EveryHoldCanBeLifted := by
  intro i s hinv hnofault hdout hdin
  have hpass := (noFault_iff i s).mp hnofault
  refine ⟨not_holdCondition_of_dout_nil hinv hpass hdout hdin, ?_⟩
  rintro d k rfl
  exact le_dinDepth_of_rsblk_passes hpass

/-! ## Reset -/

theorem hostStep_of_resetCause {a : HostAction} (h : ResetCause a) (t : State) : hostStep a t = .next (resetBlock t) := by
  rcases h with rfl | rfl
  · rfl
  · rw [hostStep, decodeAccess_register_of_hostRegAt (off := 0x28) (r := .ctrl) rfl]
    exact writeCtrl_one t

/-- Settles O43: either cause is the same reset of the state with the turn taken. -/
theorem bothResetCausesReset : Obligations.BothResetCausesReset := by
  intro s t a hcause hturn
  refine ⟨resetBlock t, (step_of_hostTurn hturn).trans (hostStep_of_resetCause hcause t), resetState_resetBlock t, ?_,
    resetBlock_turns t, resetBlock_busData t⟩
  obtain ⟨ts, -, rfl⟩ := hturn
  rfl

/-! ## The first command -/

theorem run_one (s : State) : Host.Core.run Sys2Proof.core 1 s = step s := by
  have hcore : Host.Core.step Sys2Proof.core s = step s := rfl
  simp only [Host.Core.run, hcore]
  cases step s <;> rfl

/-- Settles O4: CQ is empty after reset, so the word written becomes its head, and the sequencer's turn runs it. -/
theorem firstCommandIsFirstWordWritten : Obligations.FirstCommandIsFirstWordWritten := by
  intro rom w i hdecode
  have hwrite := step_writesCmd (w := w) (ts := [.sequencer])
    (s := { State.reset with genRom := rom, turns := [.host (.write Config.rsbchBase 32 w), .sequencer] }) rfl
    (Nat.succ_pos _)
  have hrun := stepRunsDecodedCommand { State.reset with genRom := rom, turns := [.sequencer], cq := [w] } _ w [] i
    (.inr ⟨[], rfl, rfl⟩) rfl rfl hdecode
  exact (run_succ hwrite).trans ((run_one _).trans hrun)

end Sys2Proof.Proofs
end
